-- ==== Sys2Proof/Word.lean ====
section
/-!
DEFINITION. The word types of the CHIP-8 CORE and their plainest readings (spec/00_scope.md R8, R9, R11).
Every quantity of this hardware is unsigned (R8), so a bit vector is read as a natural number with `toNat`.
-/
namespace Sys2Proof

/-- 8 bits: a V register, a timer, a memory byte, the immediate NN (R9, R11). -/
abbrev Byte := BitVec 8

/-- 16 bits: an opcode, the program counter, a stack entry, `fault_info`, `IR` (R9, R11). -/
abbrev Word := BitVec 16

/-- 12 bits: the index register I and the immediate NNN (R9, R11). -/
abbrev Addr := BitVec 12

/-- 4 bits: one field nibble of an opcode (R11). -/
abbrev Nibble := BitVec 4

/-- The number of a V register: it always comes from a 4-bit field, so it is 0..15 (R20). -/
abbrev Reg := Fin 16

/-- The number of a logical key, 0..15 (R9, R12). -/
abbrev Key := Fin 16

end Sys2Proof
end

