-- ==== Sys2Proof/Syntax.lean ====
section
/-!
DEFINITION. The instructions: one constructor per row of spec/opcode_table.json, in the decoder's scan order
(spec/30_encoding.md R94). Register numbers are 0..15 and immediates have their field's width (R91, R93). Fields
that the hardware decodes and ignores (R100: NNN of 0NNN, Y of 8XY6 and 8XYE, X of FX29 and FX33) are kept, so
that no bit of an encoding is lost.
-/
namespace Sys2Proof

/-- The 35 instructions of R94. The docstring of each is its pattern and its mnemonic in the table. -/
inductive Instr where
  /-- 00E0, CLS. -/
  | cls
  /-- 00EE, RET. -/
  | ret
  /-- 0NNN, SYS (NNN ignored). -/
  | sys (nnn : Addr)
  /-- 1NNN, JP. -/
  | jp (nnn : Addr)
  /-- 2NNN, CALL. -/
  | call (nnn : Addr)
  /-- 3XNN, SE_IMM. -/
  | seImm (x : Reg) (nn : Byte)
  /-- 4XNN, SNE_IMM. -/
  | sneImm (x : Reg) (nn : Byte)
  /-- 5XY0, SE_REG. -/
  | seReg (x y : Reg)
  /-- 6XNN, LD_IMM. -/
  | ldImm (x : Reg) (nn : Byte)
  /-- 7XNN, ADD_IMM. -/
  | addImm (x : Reg) (nn : Byte)
  /-- 8XY0, LD_REG. -/
  | ldReg (x y : Reg)
  /-- 8XY1, OR. -/
  | or (x y : Reg)
  /-- 8XY2, AND. -/
  | and (x y : Reg)
  /-- 8XY3, XOR. -/
  | xor (x y : Reg)
  /-- 8XY4, ADD_REG. -/
  | addReg (x y : Reg)
  /-- 8XY5, SUB. -/
  | sub (x y : Reg)
  /-- 8XY6, SHR (Y ignored). -/
  | shr (x y : Reg)
  /-- 8XY7, SUBN. -/
  | subn (x y : Reg)
  /-- 8XYE, SHL (Y ignored). -/
  | shl (x y : Reg)
  /-- 9XY0, SNE_REG. -/
  | sneReg (x y : Reg)
  /-- ANNN, LD_I. -/
  | ldI (nnn : Addr)
  /-- BNNN, JP_V0. -/
  | jpV0 (nnn : Addr)
  /-- CXNN, RND. -/
  | rnd (x : Reg) (nn : Byte)
  /-- DXYN, DRW. -/
  | drw (x y : Reg) (n : Nibble)
  /-- EX9E, SKP. -/
  | skp (x : Reg)
  /-- EXA1, SKNP. -/
  | sknp (x : Reg)
  /-- FX07, LD_VX_DT. -/
  | ldVxDt (x : Reg)
  /-- FX0A, LD_VX_K. -/
  | ldVxK (x : Reg)
  /-- FX15, LD_DT_VX. -/
  | ldDtVx (x : Reg)
  /-- FX18, LD_ST_VX. -/
  | ldStVx (x : Reg)
  /-- FX1E, ADD_I_VX. -/
  | addIVx (x : Reg)
  /-- FX29, LD_F_VX (X ignored). -/
  | ldFVx (x : Reg)
  /-- FX33, LD_B_VX (X ignored). -/
  | ldBVx (x : Reg)
  /-- FX55, ST_MEM. -/
  | stMem (x : Reg)
  /-- FX65, LD_MEM. -/
  | ldMem (x : Reg)
  deriving DecidableEq, Repr

end Sys2Proof
end

