-- ==== Sys2Proof/WellFormed.lean ====
section
/-!
DEFINITION. Which terms of `Instr` are instructions of the hardware. Register numbers and immediates are bounded by
their types (spec/30_encoding.md R91, R93), so one thing is left to check: 0NNN is every opcode 0x0000..0x0FFF
other than 0x00E0 and 0x00EE (spec/40_step_cycle.md R129), which entries 1 and 2 of the table take (R95).
-/
namespace Sys2Proof

/-- `SYS nnn` is a SYS: its word is neither that of CLS nor that of RET (R95, R99, R129). -/
def sysFieldOk (nnn : Addr) : Bool := nnn != 0x0E0#12 && nnn != 0x0EE#12

/-- The check, constructor by constructor. -/
def Instr.wf : Instr → Bool
  | .cls => true
  | .ret => true
  | .sys nnn => sysFieldOk nnn
  | .jp _ => true
  | .call _ => true
  | .seImm _ _ => true
  | .sneImm _ _ => true
  | .seReg _ _ => true
  | .ldImm _ _ => true
  | .addImm _ _ => true
  | .ldReg _ _ => true
  | .or _ _ => true
  | .and _ _ => true
  | .xor _ _ => true
  | .addReg _ _ => true
  | .sub _ _ => true
  | .shr _ _ => true
  | .subn _ _ => true
  | .shl _ _ => true
  | .sneReg _ _ => true
  | .ldI _ => true
  | .jpV0 _ => true
  | .rnd _ _ => true
  | .drw _ _ _ => true
  | .skp _ => true
  | .sknp _ => true
  | .ldVxDt _ => true
  | .ldVxK _ => true
  | .ldDtVx _ => true
  | .ldStVx _ => true
  | .addIVx _ => true
  | .ldFVx _ => true
  | .ldBVx _ => true
  | .stMem _ => true
  | .ldMem _ => true

/-- The instruction is well-formed. -/
abbrev Instr.WellFormed (i : Instr) : Prop := i.wf = true

end Sys2Proof
end

