-- ==== Sys2Proof/Decode.lean ====
section
/-!
DEFINITION. The decoder and, after it, the encoder, both from spec/30_encoding.md. The decoder is the ordered table
of (mask, match) entries of R94; the first entry with `op AND mask = match` names the instruction (R95), and an
opcode that matches none is rejected as a DecodeError (R98). The encoder puts the fields back where the formats of
R92 have them.
-/
namespace Sys2Proof

/-! ### Fields of an opcode (R91) -/

/-- A nibble as a register number. -/
def regOf (b : Nibble) : Reg := b.toFin

/-- X = op[11:8]. -/
def fieldX (op : Word) : Reg := regOf (op.extractLsb' 8 4)

/-- Y = op[7:4]. -/
def fieldY (op : Word) : Reg := regOf (op.extractLsb' 4 4)

/-- N = op[3:0]. -/
def fieldN (op : Word) : Nibble := op.extractLsb' 0 4

/-- NN = op[7:0]. -/
def fieldNN (op : Word) : Byte := op.extractLsb' 0 8

/-- NNN = op[11:0]. -/
def fieldNNN (op : Word) : Addr := op.extractLsb' 0 12

/-! ### The instruction table (R94) -/

/-- One entry of the instruction table, with the instruction that a matching opcode stands for. -/
structure Row where
  mask : Word
  pattern : Word
  build : Word → Instr

/-- `op AND mask = match` (R95). -/
def Row.hits (r : Row) (op : Word) : Bool := op &&& r.mask == r.pattern

/-- Entries 1 to 8: leading nibbles 0 to 5, the two full words first (R95). -/
def rowsControl : List Row :=
  [ ⟨0xFFFF#16, 0x00E0#16, fun _ => .cls⟩,
    ⟨0xFFFF#16, 0x00EE#16, fun _ => .ret⟩,
    ⟨0xF000#16, 0x0000#16, fun op => .sys (fieldNNN op)⟩,
    ⟨0xF000#16, 0x1000#16, fun op => .jp (fieldNNN op)⟩,
    ⟨0xF000#16, 0x2000#16, fun op => .call (fieldNNN op)⟩,
    ⟨0xF000#16, 0x3000#16, fun op => .seImm (fieldX op) (fieldNN op)⟩,
    ⟨0xF000#16, 0x4000#16, fun op => .sneImm (fieldX op) (fieldNN op)⟩,
    ⟨0xF00F#16, 0x5000#16, fun op => .seReg (fieldX op) (fieldY op)⟩ ]

/-- Entries 9 to 19: leading nibbles 6 to 8. -/
def rowsAlu : List Row :=
  [ ⟨0xF000#16, 0x6000#16, fun op => .ldImm (fieldX op) (fieldNN op)⟩,
    ⟨0xF000#16, 0x7000#16, fun op => .addImm (fieldX op) (fieldNN op)⟩,
    ⟨0xF00F#16, 0x8000#16, fun op => .ldReg (fieldX op) (fieldY op)⟩,
    ⟨0xF00F#16, 0x8001#16, fun op => .or (fieldX op) (fieldY op)⟩,
    ⟨0xF00F#16, 0x8002#16, fun op => .and (fieldX op) (fieldY op)⟩,
    ⟨0xF00F#16, 0x8003#16, fun op => .xor (fieldX op) (fieldY op)⟩,
    ⟨0xF00F#16, 0x8004#16, fun op => .addReg (fieldX op) (fieldY op)⟩,
    ⟨0xF00F#16, 0x8005#16, fun op => .sub (fieldX op) (fieldY op)⟩,
    ⟨0xF00F#16, 0x8006#16, fun op => .shr (fieldX op) (fieldY op)⟩,
    ⟨0xF00F#16, 0x8007#16, fun op => .subn (fieldX op) (fieldY op)⟩,
    ⟨0xF00F#16, 0x800E#16, fun op => .shl (fieldX op) (fieldY op)⟩ ]

/-- Entries 20 to 26: leading nibbles 9 to E. -/
def rowsMiddle : List Row :=
  [ ⟨0xF00F#16, 0x9000#16, fun op => .sneReg (fieldX op) (fieldY op)⟩,
    ⟨0xF000#16, 0xA000#16, fun op => .ldI (fieldNNN op)⟩,
    ⟨0xF000#16, 0xB000#16, fun op => .jpV0 (fieldNNN op)⟩,
    ⟨0xF000#16, 0xC000#16, fun op => .rnd (fieldX op) (fieldNN op)⟩,
    ⟨0xF000#16, 0xD000#16, fun op => .drw (fieldX op) (fieldY op) (fieldN op)⟩,
    ⟨0xF0FF#16, 0xE09E#16, fun op => .skp (fieldX op)⟩,
    ⟨0xF0FF#16, 0xE0A1#16, fun op => .sknp (fieldX op)⟩ ]

/-- Entries 27 to 35: leading nibble F. -/
def rowsMisc : List Row :=
  [ ⟨0xF0FF#16, 0xF007#16, fun op => .ldVxDt (fieldX op)⟩,
    ⟨0xF0FF#16, 0xF00A#16, fun op => .ldVxK (fieldX op)⟩,
    ⟨0xF0FF#16, 0xF015#16, fun op => .ldDtVx (fieldX op)⟩,
    ⟨0xF0FF#16, 0xF018#16, fun op => .ldStVx (fieldX op)⟩,
    ⟨0xF0FF#16, 0xF01E#16, fun op => .addIVx (fieldX op)⟩,
    ⟨0xF0FF#16, 0xF029#16, fun op => .ldFVx (fieldX op)⟩,
    ⟨0xF0FF#16, 0xF033#16, fun op => .ldBVx (fieldX op)⟩,
    ⟨0xF0FF#16, 0xF055#16, fun op => .stMem (fieldX op)⟩,
    ⟨0xF0FF#16, 0xF065#16, fun op => .ldMem (fieldX op)⟩ ]

/-- The whole table, in the order the decoder scans it (R94). -/
def table : List Row := rowsControl ++ rowsAlu ++ rowsMiddle ++ rowsMisc

/-! ### The decoder -/

/-- Why bytes are not an instruction. -/
inductive DecodeReject where
  /-- No entry of the table matches the opcode (R98). The machine takes the fault DecodeError on it (R242). -/
  | decodeError (op : Word)
  /-- Fewer than the two bytes of an instruction are there (R90). The machine never asks this: a fetch whose second
  byte lies outside memory is an AddressFault first (R122). -/
  | truncated
  deriving DecidableEq, Repr

/-- `Decode(op)`: the first matching entry of the table, else DecodeError (R95). -/
def decode (op : Word) : Except DecodeReject Instr :=
  match table.find? (·.hits op) with
  | some r => .ok (r.build op)
  | none => .error (.decodeError op)

/-- The opcode made of two bytes, the first being `op[15:8]` (big-endian, spec/20_memory.md R64). -/
def joinBytes (hi lo : Byte) : Word := hi ++ lo

/-- `op[15:8]`. -/
def highByte (op : Word) : Byte := op.extractLsb' 8 8

/-- `op[7:0]`. -/
def lowByte (op : Word) : Byte := op.extractLsb' 0 8

/-- Decoding a byte string: the first instruction and the bytes after it. -/
def decodeBytes : List Byte → Except DecodeReject (Instr × List Byte)
  | hi :: lo :: rest =>
    match decode (joinBytes hi lo) with
    | .ok i => .ok (i, rest)
    | .error e => .error e
  | _ => .error .truncated

/-! ### The encoder (formats of R92) -/

/-- A register number as a nibble. -/
def nibOf (r : Reg) : Nibble := BitVec.ofFin r

/-- Format NNN: a group nibble and a 12-bit immediate. -/
def encNNN (group : Nibble) (nnn : Addr) : Word := group ++ nnn

/-- Format XNN, and format Xnn with a fixed low byte. -/
def encXNN (group : Nibble) (x : Reg) (nn : Byte) : Word := (group ++ nibOf x) ++ nn

/-- Format XYn, with a fixed minor nibble or N. -/
def encXYN (group : Nibble) (x y : Reg) (n : Nibble) : Word := (group ++ nibOf x) ++ (nibOf y ++ n)

/-- The opcode of an instruction. -/
def encode : Instr → Word
  | .cls => 0x00E0#16
  | .ret => 0x00EE#16
  | .sys nnn => encNNN 0x0#4 nnn
  | .jp nnn => encNNN 0x1#4 nnn
  | .call nnn => encNNN 0x2#4 nnn
  | .seImm x nn => encXNN 0x3#4 x nn
  | .sneImm x nn => encXNN 0x4#4 x nn
  | .seReg x y => encXYN 0x5#4 x y 0x0#4
  | .ldImm x nn => encXNN 0x6#4 x nn
  | .addImm x nn => encXNN 0x7#4 x nn
  | .ldReg x y => encXYN 0x8#4 x y 0x0#4
  | .or x y => encXYN 0x8#4 x y 0x1#4
  | .and x y => encXYN 0x8#4 x y 0x2#4
  | .xor x y => encXYN 0x8#4 x y 0x3#4
  | .addReg x y => encXYN 0x8#4 x y 0x4#4
  | .sub x y => encXYN 0x8#4 x y 0x5#4
  | .shr x y => encXYN 0x8#4 x y 0x6#4
  | .subn x y => encXYN 0x8#4 x y 0x7#4
  | .shl x y => encXYN 0x8#4 x y 0xE#4
  | .sneReg x y => encXYN 0x9#4 x y 0x0#4
  | .ldI nnn => encNNN 0xA#4 nnn
  | .jpV0 nnn => encNNN 0xB#4 nnn
  | .rnd x nn => encXNN 0xC#4 x nn
  | .drw x y n => encXYN 0xD#4 x y n
  | .skp x => encXNN 0xE#4 x 0x9E#8
  | .sknp x => encXNN 0xE#4 x 0xA1#8
  | .ldVxDt x => encXNN 0xF#4 x 0x07#8
  | .ldVxK x => encXNN 0xF#4 x 0x0A#8
  | .ldDtVx x => encXNN 0xF#4 x 0x15#8
  | .ldStVx x => encXNN 0xF#4 x 0x18#8
  | .addIVx x => encXNN 0xF#4 x 0x1E#8
  | .ldFVx x => encXNN 0xF#4 x 0x29#8
  | .ldBVx x => encXNN 0xF#4 x 0x33#8
  | .stMem x => encXNN 0xF#4 x 0x55#8
  | .ldMem x => encXNN 0xF#4 x 0x65#8

/-- The two bytes of an instruction as memory holds them, the high byte at the lower address (R64, R90). -/
def encodeBytes (i : Instr) : List Byte := [highByte (encode i), lowByte (encode i)]

/-! ### The host's reading of one table word -/

/-- The opcode in the low `nbits` bits of `w`; every bit above them is 0. -/
def tableWord (nbits w : Nat) : Word := BitVec.ofNat 16 (w % 2 ^ nbits)

/-- The instruction this decoder reads from the bytes of a table word laid out as memory holds them. -/
def decodeTableWord (nbits w : Nat) : Option Instr :=
  match decodeBytes [highByte (tableWord nbits w), lowByte (tableWord nbits w)] with
  | .ok (i, _) => some i
  | .error _ => none

end Sys2Proof
end

