-- ==== Sys2Proof/Config.lean ====
section
/-!
DEFINITION. What is fixed for this hardware (spec/00_scope.md R6), what the spec leaves open (R7), and
the FREE VALUES: constants without a body, of which nothing can be proved but their type. A free value is applied
to the counter `State.freeCount`, which every use advances, so that two uses are two unrelated values.
-/
namespace Sys2Proof.Config

/-- MEM_SIZE, R6: bytes of memory, addresses 0x000 to 0xFFF. -/
def memSize : Nat := 4096

/-- The last address of memory, 0xFFF (R29, R62). -/
def lastAddr : Nat := 0xFFF

/-- PROG_BASE, R6: the reset value of pc and the address of the first ROM byte. -/
def progBase : Nat := 0x200

/-- ROM_MAX, R6: the largest ROM in bytes, 4096 - 0x200. -/
def romMax : Nat := 3584

/-- I_MODULUS, R6 and spec/93_implementation_defined.md U1: the modulus FX1E applies, 0xFFF and not 0x1000. -/
def iModulus : Nat := 0xFFF

/-- STACK_DEPTH, R6. -/
def stackDepth : Nat := 16

/-- FB_W, R6. -/
def fbWidth : Nat := 64

/-- FB_H, R6. -/
def fbHeight : Nat := 32

/-- What a byte of memory that nothing has written reads as: the spec's reset value 0x00 (R29, R38, R281). -/
def unlistedByte : Byte := 0x00#8

/-- The default of EQ_DEPTH, R7: unbounded (spec/92_eei_decisions.md D19). The parameter itself is OPEN and an argument
of the machine, `State.eqDepth`; this is what `State.reset` gives it (notes/assumptions/3.md). -/
def eqDepthDefault : Option Nat := none

/-- INSTR_HZ, R7: OPEN, so without a value here (the spec's reference is 1000). Timing only: no rule depends on it
and no definition of the model reads it (R292). -/
opaque instrHz : Nat

/-- FRAME_HZ, R7: OPEN, timing only, as INSTR_HZ (the spec's reference is 60). -/
opaque frameHz : Nat

/-- KEY_POLL_MS, R7: OPEN, timing only, as INSTR_HZ (the spec's reference is about 100). -/
opaque keyPollMs : Nat

/-- FREE VALUE. The answer of the RNG input to `draw(0, NN)` (R173, spec/93_implementation_defined.md U4): any
number 0..NN, its type being the only thing known of it. First argument: the use's number. notes/assumptions/1.md. -/
opaque rngDraw (use : Nat) (nn : Byte) : Fin (nn.toNat + 1)

/-- FREE VALUE. How a key wait ends when the run flag is cleared during it (R257, U3): `none`, the instruction is
abandoned; `some k`, it completes with the unspecified key k. notes/assumptions/2.md. -/
opaque stopDuringWait (use : Nat) : Option Key

/-- FREE VALUE. Which of the two values of each pixel of row y a host read that overlaps a draw or a clear returns
(R258, U5): bit x is 1 where it is the value after the instruction. notes/assumptions/4.md. -/
opaque tornRow (use : Nat) (y : Fin 32) : BitVec 64

end Sys2Proof.Config
end

