-- ==== Sys2Proof/Machine/State.lean ====
section
/-!
DEFINITION. The state of the machine as plain data: everything spec/10_state.md gives it, and four fields of the
model's own (the queue's capacity, the host's schedule, what the host has read, the count of free values used).
INVENTORY.md lists every field with its rule and its reset value.
-/
namespace Sys2Proof.Machine

/-- Main memory (R29, R60): address and byte pairs in ONE canonical form, `Memory.wf` of Machine/Ops.lean; an
address not listed reads as `Config.unlistedByte`. -/
abbrev Memory := List Host.Cell

/-- The framebuffer (R30, R200): 32 rows of 64 one-bit pixels, 1 = on. Pixel (x, y) is bit x of row y. -/
abbrev Framebuffer := Vector (BitVec 64) 32

/-- A key event (R32): a logical key and whether it went down. -/
structure KeyEvent where
  key : Key
  down : Bool
  deriving DecidableEq, Repr

/-- Whose turn it is inside the core (R41). -/
inductive Phase where
  /-- CoreDrain is next. -/
  | drain
  /-- CoreExec is next. -/
  | exec
  deriving DecidableEq, Repr

/-- The cause of the fatal condition that stopped the core (R35, R240). These are values of a register of the
hardware; they are not outcomes of a step. -/
inductive FaultCause where
  | none
  | decodeError
  | stackOverflow
  | stackUnderflow
  | invalidKeyIndex
  | addressFault
  deriving DecidableEq, Repr

/-- The moves the host can make (spec/92_eei_decisions.md D20, spec/60_exceptions.md R253 to R259,
spec/70_reset_and_hazards.md R280, R284). -/
inductive HostMove where
  /-- Reset, R280. -/
  | reset
  /-- HostLoadROM, R284. -/
  | loadROM (bytes : List Byte)
  /-- HostStart, R255. -/
  | start
  /-- HostStop, R256, R257. -/
  | stop
  /-- HostEnqueue, R253. -/
  | enqueue (k : Key) (down : Bool)
  /-- HostReadFB that falls between two core transitions, R258. -/
  | readFB
  /-- HostReadStatus, R259. -/
  | readStatus
  deriving DecidableEq, Repr

/-- One entry of the schedule: which agent moves next (R252). MODEL'S OWN, notes/assumptions/5.md. -/
inductive Turn where
  /-- The core makes its next transition. -/
  | core
  /-- The core makes its next transition while a HostReadFB overlaps it, R258. One read overlaps ONE transition of
  the core; what a read that spans several of them returns the spec does not say (DESIGN CHOICE to leave it out,
  notes/assumptions/4.md). -/
  | coreWithRead
  /-- The host makes a move. -/
  | host (m : HostMove)
  deriving DecidableEq, Repr

/-- What a host read returned. -/
inductive Reading where
  /-- The grid that HostReadFB returned, R258. -/
  | framebuffer (grid : Framebuffer)
  /-- What HostReadStatus returned: run, fault, fault_info, wait and ST, R259. -/
  | status (run : Bool) (fault : FaultCause) (faultInfo : Word) (wait : Bool) (st : Byte)
  deriving DecidableEq, Repr

/-- The machine's state. Field names are the spec's (R9). -/
structure State where
  /-- V[0..15], R20. V[15] is VF, R21. -/
  V : Vector Byte 16
  /-- The index register, 12 bits, R24. -/
  I : Addr
  /-- The program counter, 16 bits, R22. -/
  pc : Word
  /-- The stack depth, 0..16, R25. -/
  sp : Fin 17
  /-- stack[0..15], 16 bits each, R26. -/
  stack : Vector Word 16
  /-- The delay timer, R27. -/
  DT : Byte
  /-- The sound timer, R28. -/
  ST : Byte
  /-- The key-state vector, true = down, R31. -/
  K : Vector Bool 16
  /-- Main memory, R29. -/
  M : Memory
  /-- The framebuffer, R30. -/
  FB : Framebuffer
  /-- The key-event queue, oldest first, R32. -/
  EQ : List KeyEvent
  /-- The run flag, R33. -/
  run : Bool
  /-- The hidden companion of run, R33. -/
  started : Bool
  /-- Suspended inside FX0A, R34. -/
  wait : Bool
  /-- The cause of the fatal condition, R35. -/
  fault : FaultCause
  /-- The offending value, R35, R240. -/
  faultInfo : Word
  /-- The latch of the opcode being executed, R36. -/
  IR : Word
  /-- CoreDrain or CoreExec next, R41. -/
  phase : Phase
  /-- MODEL'S OWN: the parameter EQ_DEPTH (R7, D19), the capacity of EQ, `none` for unbounded. It is OPEN and an
  argument of the machine; a step takes nothing but a State, so it stands here. No transition changes it. -/
  eqDepth : Option Nat
  /-- MODEL'S OWN: the turns still to come, first one first; when it is empty the core moves. -/
  schedule : List Turn
  /-- MODEL'S OWN: what the host has read, oldest first. -/
  reads : List Reading
  /-- MODEL'S OWN: how many free values have been used. Only ever an argument of a free value of Config. -/
  freeCount : Nat
  deriving DecidableEq, Repr

/-- Why a step has no successor. A fatal condition OF THE HARDWARE (R240) is not one of these: raising it is a next
state, in which `fault`, `fault_info` and `run` are written (R241). No instruction's meaning ends in one. -/
inductive Fault where
  /-- Raised by a scheduled HostStart whose precondition `started = 0 and fault = NONE` does not hold (R255): the host
  cannot make that move there. Safe: the machine stops where the hardware has no such transition. -/
  | startNotEnabled
  /-- Raised by a scheduled HostLoadROM whose precondition `started = 0` does not hold (R284). Safe, as above. -/
  | romLoadNotEnabled
  deriving DecidableEq, Repr

/-- Why a step is refused. -/
inductive Refusal where
  /-- Raised by an arm of `exec` without a meaning: the instruction of that mnemonic is not modelled. Safe. No arm of
  this model raises it. -/
  | notModelled (mnemonic : String)
  /-- RomTooLarge, raised by a scheduled HostLoadROM of more than 3584 bytes: no byte is written and the core is not
  started (R285, spec/93_implementation_defined.md U14). Safe: what the hardware does next is left out. -/
  | romTooLarge
  /-- Raised by HostEnqueue into a queue that is full, `State.eqDepth` being its capacity: the host has no such step
  (R253, U6). Safe. With the default, unbounded capacity it does not arise. -/
  | queueFull
  deriving DecidableEq, Repr

/-- One step's result. -/
abbrev Result := Host.Outcome State Fault Refusal

/-- The state right after reset (R38, R280). The spec gives every value but that of IR, which it leaves unspecified
and allows to be 0x0000 (R36, U13): DESIGN CHOICE, notes/assumptions/6.md. The last four fields are the model's own:
the capacity of EQ is the default (notes/assumptions/3.md), no host move is scheduled, nothing has been read, no free
value has been used (DESIGN CHOICE, notes/assumptions/7.md). -/
def State.reset : State where
  V := Vector.replicate 16 0x00#8
  I := 0x000#12
  pc := 0x0200#16
  sp := 0
  stack := Vector.replicate 16 0x0000#16
  DT := 0x00#8
  ST := 0x00#8
  K := Vector.replicate 16 false
  M := []
  FB := Vector.replicate 32 0#64
  EQ := []
  run := false
  started := false
  wait := false
  fault := .none
  faultInfo := 0x0000#16
  IR := 0x0000#16
  phase := .drain
  eqDepth := Config.eqDepthDefault
  schedule := []
  reads := []
  freeCount := 0

end Sys2Proof.Machine
end

