-- ==== Sys2Proof/Machine/Ops.lean ====
section
/-!
DEFINITION. The named operations over memory, registers, stack, timers and framebuffer, and taking a fault. Every
meaning is written over these.
-/
namespace Sys2Proof.Machine

/-! ### Faults (spec/60_exceptions.md) -/

/-- The numeric codes of R240. -/
def FaultCause.code : FaultCause → Nat
  | .none => 0
  | .decodeError => 1
  | .stackOverflow => 2
  | .stackUnderflow => 3
  | .invalidKeyIndex => 4
  | .addressFault => 5

/-- A fault about to be raised: its cause and the value for `fault_info` (R240). -/
structure Raised where
  cause : FaultCause
  info : Word
  deriving DecidableEq, Repr

/-- `AddressFault(addr)` (R246). -/
def addressFault (addr : Nat) : Raised := ⟨.addressFault, BitVec.ofNat 16 addr⟩

/-- TAKING A FAULT (R241, R250): `fault` and `fault_info` are written and `run` is cleared; nothing else changes. The
state given is the one before any write of the instruction, so every write of the step is discarded. No handler is
entered and there is no return from a fault (R251): the one way out is the host's Reset, `hostReset` of
Machine/HostPort.lean. -/
def State.raise (r : Raised) (s : State) : State :=
  { s with fault := r.cause, faultInfo := r.info, run := false }

/-- The result of a step that raises. -/
def raising (r : Raised) (s : State) : Result := .next (s.raise r)

/-! ### Main memory (spec/20_memory.md) -/

/-- The byte at an address. -/
def Memory.get : Memory → Nat → Byte
  | [], _ => Config.unlistedByte
  | (k, b) :: m, a => if a = k then b else Memory.get m a

/-- Memory with one byte replaced, in canonical form again. -/
def Memory.set : Memory → Nat → Byte → Memory
  | [], a, b => if b = Config.unlistedByte then [] else [(a, b)]
  | (k, c) :: m, a, b =>
    if a < k then (if b = Config.unlistedByte then (k, c) :: m else (a, b) :: (k, c) :: m)
    else if a = k then (if b = Config.unlistedByte then m else (a, b) :: m)
    else (k, c) :: Memory.set m a b

/-- The canonical form: addresses strictly rising, inside 0x000..0xFFF, and no byte listed that equals what an
unlisted address reads as. -/
abbrev Memory.wf (m : Memory) : Prop :=
  m.Pairwise (fun c d => c.1 < d.1) ∧ ∀ c ∈ m, c.1 < Config.memSize ∧ c.2 ≠ Config.unlistedByte

/-- `MemRead(addr, 1)` (R62). -/
def memRead (m : Memory) (addr : Nat) : Except Raised Byte :=
  if Config.lastAddr < addr then .error (addressFault addr) else .ok (m.get addr)

/-- `MemRead(addr, 2)`, big-endian (R62, R64). -/
def memRead2 (m : Memory) (addr : Nat) : Except Raised Word :=
  if Config.lastAddr < addr + 1 then .error (addressFault addr)
  else .ok (joinBytes (m.get addr) (m.get (addr + 1)))

/-- `MemWrite(addr, 1, v)` (R63). -/
def memWrite (m : Memory) (addr : Nat) (v : Byte) : Except Raised Memory :=
  if Config.lastAddr < addr then .error (addressFault addr) else .ok (m.set addr v)

/-- `n` bytes read from `addr` upward in ascending order (R66). -/
def loadBlock (m : Memory) (addr : Nat) : Nat → Except Raised (List Byte)
  | 0 => .ok []
  | n + 1 =>
    match memRead m addr with
    | .error r => .error r
    | .ok b =>
      match loadBlock m (addr + 1) n with
      | .error r => .error r
      | .ok bs => .ok (b :: bs)

/-- Bytes written from `addr` upward in ascending order (R66). -/
def storeBlock (m : Memory) (addr : Nat) : List Byte → Except Raised Memory
  | [] => .ok m
  | b :: bs =>
    match memWrite m addr b with
    | .error r => .error r
    | .ok m' => storeBlock m' (addr + 1) bs

/-- Bytes copied to memory without a check: the host's ROM load, whose precondition is the check (R284). -/
def Memory.copy (m : Memory) (addr : Nat) : List Byte → Memory
  | [] => m
  | b :: bs => Memory.copy (m.set addr b) (addr + 1) bs

/-- `Fetch()` without its latch: the opcode at pc (R122). -/
def fetch (s : State) : Except Raised Word := memRead2 s.M s.pc.toNat

/-! ### Registers (spec/10_state.md) -/

/-- V[x]. -/
def State.reg (s : State) (x : Reg) : Byte := s.V[x]

/-- The number of VF (R9, R21). -/
def vf : Reg := 15

/-- `V[x] <- b`. -/
def State.setReg (s : State) (x : Reg) (b : Byte) : State := { s with V := s.V.set x b }

/-- Bytes into consecutive registers from number x upward, in ascending order (R193). -/
def writeRegs (v : Vector Byte 16) (x : Nat) : List Byte → Vector Byte 16
  | [] => v
  | b :: bs => writeRegs (if h : x < 16 then v.set x b h else v) (x + 1) bs

/-- `V[0], V[1], .. <- bs` (R193). -/
def State.setRegs (s : State) (bs : List Byte) : State := { s with V := writeRegs s.V 0 bs }

/-- V[0] .. V[x] in ascending order (R192). -/
def State.regsUpTo (s : State) (x : Reg) : List Byte := s.V.toList.take (x.val + 1)

/-- `I <- a` (R24). -/
def State.setI (s : State) (a : Addr) : State := { s with I := a }

/-- `DT <- b` (R27). -/
def State.setDT (s : State) (b : Byte) : State := { s with DT := b }

/-- `ST <- b` (R28). -/
def State.setST (s : State) (b : Byte) : State := { s with ST := b }

/-- `M <- m`. -/
def State.setMem (s : State) (m : Memory) : State := { s with M := m }

/-- `FB <- f`. -/
def State.setFB (s : State) (f : Framebuffer) : State := { s with FB := f }

/-- `IR <- op` (R36, R121). -/
def State.latch (s : State) (op : Word) : State := { s with IR := op }

/-- One more free value has been used. -/
def State.useFree (s : State) : State := { s with freeCount := s.freeCount + 1 }

/-! ### The return stack (R25, R26) -/

/-- stack[d], the entry that a push at depth d writes; 0 past the last entry, which no instruction asks for. -/
def State.stackAt (s : State) (d : Nat) : Word := if h : d < 16 then s.stack[d] else 0#16

/-- `stack[sp] <- w; sp <- sp + 1`, or nothing when 16 entries are in use (R141). -/
def State.push? (s : State) (w : Word) : Option State :=
  if h : s.sp.val < 16 then
    some { s with stack := s.stack.set s.sp.val w h, sp := ⟨s.sp.val + 1, by omega⟩ }
  else none

/-- `sp <- sp - 1` with the entry then at `stack[sp]`, or nothing when the stack is empty (R142). The entry keeps its
bits (R26). -/
def State.pop? (s : State) : Option (Word × State) :=
  if s.sp.val = 0 then none
  else some (s.stackAt (s.sp.val - 1), { s with sp := ⟨s.sp.val - 1, by omega⟩ })

/-! ### The end of an instruction (spec/40_step_cycle.md) -/

/-- One count of a timer: down by one, floor at 0 (R126). -/
def countDown (t : Byte) : Byte := if 0 < t.toNat then t - 1#8 else t

/-- `Tick()` (R126). -/
def State.tick (s : State) : State := { s with DT := countDown s.DT, ST := countDown s.ST }

/-- `pc <- next_pc; Tick()`, and `phase <- DRAIN` (R120, R121, R124, R125). -/
def State.complete (s : State) (nextPc : Word) : State := { s.tick with pc := nextPc, phase := .drain }

/-- The result of an instruction that completes. -/
def completing (nextPc : Word) (s : State) : Result := .next (s.complete nextPc)

/-- The default next_pc: `pc + 2` (R124). -/
def State.pcNext (s : State) : Word := s.pc + 2#16

/-- next_pc of a skip: `pc + 4` when the condition holds, else `pc + 2` (R124). -/
def State.pcSkip (s : State) (cond : Bool) : Word := if cond then s.pc + 4#16 else s.pc + 2#16

/-! ### The framebuffer (spec/44_display.md) -/

/-- FB[x, y]. -/
def Framebuffer.get (f : Framebuffer) (x : Fin 64) (y : Fin 32) : Bool := f[y].getLsbD x.val

/-- The framebuffer with every pixel 0 (R201). -/
def Framebuffer.blank : Framebuffer := Vector.replicate 32 0#64

/-- A draw in progress: the pixels so far, of one row or of the whole framebuffer, and whether a pixel that was on has
been cleared (VF, R202). -/
structure Drawn (α : Type) where
  pixels : α
  hit : Bool
  deriving DecidableEq, Repr

/-- A column number wrapped modulo 64 (R200). -/
def wrapX (x : Nat) : Fin 64 := ⟨x % 64, Nat.mod_lt x (by decide)⟩

/-- A row number wrapped modulo 32 (R200). -/
def wrapY (y : Nat) : Fin 32 := ⟨y % 32, Nat.mod_lt y (by decide)⟩

/-- Bit `bit` of a sprite byte, counted from the most significant (R202, R203): `b[7 - bit]`. -/
def spriteBit (b : Byte) (bit : Nat) : Bool := b.getLsbD (7 - bit)

/-- The innermost statement of DRW (R202): a source bit of 1 toggles its pixel, `FB[px, py] <- FB[px, py] XOR 1`, and
an on pixel about to be cleared is a collision. -/
def drawBit (on : Bool) (x : Fin 64) (d : Drawn (BitVec 64)) : Drawn (BitVec 64) :=
  if on then ⟨d.pixels ^^^ BitVec.twoPow 64 x.val, d.hit || d.pixels.getLsbD x.val⟩ else d

/-- The last `n` of the 8 bits of a sprite byte, in ascending order, onto one row: bit `7 - (n - 1)` first. Every bit of
a byte has the same target row (R202). -/
def drawBits (b : Byte) (x0 : Nat) : Nat → Drawn (BitVec 64) → Drawn (BitVec 64)
  | 0, d => d
  | n + 1, d => drawBits b x0 n (drawBit (spriteBit b (7 - n)) (wrapX (x0 + (7 - n))) d)

/-- One sprite byte onto its row `y mod 32`. -/
def drawByte (b : Byte) (x0 y : Nat) (d : Drawn Framebuffer) : Drawn Framebuffer :=
  let r := drawBits b x0 8 ⟨d.pixels[wrapY y], d.hit⟩
  ⟨d.pixels.set (wrapY y) r.pixels, r.hit⟩

/-- The sprite's bytes from the top row down, row by row (R202, R203). -/
def drawRows (x0 y : Nat) : List Byte → Drawn Framebuffer → Drawn Framebuffer
  | [], d => d
  | b :: bs, d => drawRows x0 (y + 1) bs (drawByte b x0 y d)

/-! ### Key events (spec/60_exceptions.md) -/

/-- `K[k] <- d` for one event (R254). -/
def applyEvent (keys : Vector Bool 16) (e : KeyEvent) : Vector Bool 16 := keys.set e.key e.down

/-- The events applied oldest first (R254). -/
def applyEvents (keys : Vector Bool 16) (es : List KeyEvent) : Vector Bool 16 := es.foldl applyEvent keys

/-- The key of the oldest down event of a queue (R224). -/
def oldestDown : List KeyEvent → Option Key
  | [] => none
  | e :: es => if e.down then some e.key else oldestDown es

end Sys2Proof.Machine
end

