-- ==== Sys2Proof/Machine/Flags.lean ====
section
/-!
DEFINITION. Every value that an instruction writes to VF as a flag (spec/10_state.md R21), and the result that goes
with it. Sums and differences are formed exactly, as a natural number or an integer, and narrowed at the end (R171).
-/
namespace Sys2Proof.Machine

/-- 1 or 0 as a register value. -/
def flag (b : Bool) : Byte := if b then 0x01#8 else 0x00#8

/-- `zext_9(a) + zext_9(b)`, 0..510 (R166). -/
def sum (a b : Byte) : Nat := a.toNat + b.toNat

/-- The carry of 8XY4: 1 when the sum is above 255 (R166). -/
def carryFlag (a b : Byte) : Byte := flag (255 < sum a b)

/-- The sum modulo 256 (R161, R166). -/
def sumByte (a b : Byte) : Byte := BitVec.ofNat 8 (sum a b % 256)

/-- `a - b` as an integer, -255..255 (R167, R169). -/
def diff (a b : Byte) : Int := (a.toNat : Int) - (b.toNat : Int)

/-- The inverted borrow of 8XY5 and 8XY7: 0 when the difference is negative, else 1 (R167, R169). -/
def notBorrowFlag (a b : Byte) : Byte := flag (¬ diff a b < 0)

/-- The difference modulo 256 (R167, R169). -/
def diffByte (a b : Byte) : Byte := BitVec.ofInt 8 (diff a b % 256)

/-- The bit 8XY6 shifts out: bit 0 (R168). -/
def lowBitFlag (a : Byte) : Byte := flag (a.getLsbD 0)

/-- `a >> 1`, logical (R168). -/
def shiftedRight (a : Byte) : Byte := a >>> 1

/-- The bit 8XYE shifts out: bit 7 (R170). -/
def highBitFlag (a : Byte) : Byte := flag (a.getLsbD 7)

/-- `(a << 1) mod 256` (R170). -/
def shiftedLeft (a : Byte) : Byte := a <<< 1

/-- `zext_13(I) + zext_13(V[X])`, 0..0x10FE (R191). -/
def indexSum (i : Addr) (b : Byte) : Nat := i.toNat + b.toNat

/-- VF of FX1E: 1 when the sum is above 0xFFF, else 0 (R191). -/
def indexFlag (i : Addr) (b : Byte) : Byte := flag (0xFFF < indexSum i b)

/-- I of FX1E: the sum modulo 0xFFF, not 0x1000 (R191). -/
def indexResult (i : Addr) (b : Byte) : Addr := BitVec.ofNat 12 (indexSum i b % Config.iModulus)

/-- VF of DXYN: 1 when at least one pixel went from on to off, else 0 (R202). -/
def collisionFlag (d : Drawn Framebuffer) : Byte := flag d.hit

end Sys2Proof.Machine
end

