-- ==== Sys2Proof/Machine/Operands.lean ====
section
/-!
DEFINITION. The operand forms (spec/30_encoding.md R93, spec/20_memory.md R68): V[X] and V[Y] are `State.reg`;
immediates are unsigned and are not extended by a sign, scaled or shifted; a jump target is an absolute address; data
in memory is at I plus a small offset; a key number is the whole of V[X].
-/
namespace Sys2Proof.Machine

/-- `zext_16(NNN)`, a jump target (R93). -/
def target (nnn : Addr) : Word := nnn.zeroExtend 16

/-- `zext_16(NNN) + zext_16(V[0])`, a 16-bit sum (R93, R143). -/
def targetPlusV0 (s : State) (nnn : Addr) : Word := nnn.zeroExtend 16 + (s.reg 0).zeroExtend 16

/-- The effective address of I plus an offset, without wrap (R68). -/
def effAddr (s : State) (offset : Nat) : Nat := s.I.toNat + offset

/-- The check of a block whose last byte is at I plus `last`: the fault it raises, with the block's last address, or
nothing (R202, R192, R193, R246). -/
def blockFault? (s : State) (last : Nat) : Option Raised :=
  if Config.lastAddr < effAddr s last then some (addressFault (effAddr s last)) else none

/-- The key that a register value names, or InvalidKeyIndex with the value (R220, R245). -/
def keyOperand (b : Byte) : Except Raised Key :=
  if h : b.toNat < 16 then .ok ⟨b.toNat, h⟩ else .error ⟨.invalidKeyIndex, b.zeroExtend 16⟩

/-- The key state a skip tests: `K[V[X]]` (R220). -/
def State.keyState (s : State) (k : Key) : Bool := s.K[k]

end Sys2Proof.Machine
end

