-- ==== Sys2Proof/Machine/Alu.lean ====
section
/-!
DEFINITION. Arithmetic, logic and random (spec/42_alu.md). All have next_pc = pc + 2 and none faults. An instruction
that writes a flag writes VF first and V[X] second (R10, R166 to R170, spec/92_eei_decisions.md D9), so with X = 15
the result is what stays (R172).
-/
namespace Sys2Proof.Machine

/-- `V[X] <- r`, no flag. -/
def writeResult (x : Reg) (r : Byte) (s : State) : Result := completing s.pcNext (s.setReg x r)

/-- `VF <- f; V[X] <- r`, with f and r computed from the state before both. -/
def writeFlagResult (x : Reg) (f r : Byte) (s : State) : Result :=
  completing s.pcNext ((s.setReg vf f).setReg x r)

/-- 6XNN, LD_IMM (R160). -/
def execLdImm (x : Reg) (nn : Byte) (s : State) : Result := writeResult x nn s

/-- 7XNN, ADD_IMM (R161): VF is not touched. -/
def execAddImm (x : Reg) (nn : Byte) (s : State) : Result := writeResult x (sumByte (s.reg x) nn) s

/-- 8XY0, LD_REG (R162). -/
def execLdReg (x y : Reg) (s : State) : Result := writeResult x (s.reg y) s

/-- 8XY1, OR (R163): VF is not touched. -/
def execOr (x y : Reg) (s : State) : Result := writeResult x (s.reg x ||| s.reg y) s

/-- 8XY2, AND (R164). -/
def execAnd (x y : Reg) (s : State) : Result := writeResult x (s.reg x &&& s.reg y) s

/-- 8XY3, XOR (R165). -/
def execXor (x y : Reg) (s : State) : Result := writeResult x (s.reg x ^^^ s.reg y) s

/-- 8XY4, ADD_REG (R166). -/
def execAddReg (x y : Reg) (s : State) : Result :=
  writeFlagResult x (carryFlag (s.reg x) (s.reg y)) (sumByte (s.reg x) (s.reg y)) s

/-- 8XY5, SUB, X - Y (R167). -/
def execSub (x y : Reg) (s : State) : Result :=
  writeFlagResult x (notBorrowFlag (s.reg x) (s.reg y)) (diffByte (s.reg x) (s.reg y)) s

/-- 8XY7, SUBN, Y - X (R169). -/
def execSubn (x y : Reg) (s : State) : Result :=
  writeFlagResult x (notBorrowFlag (s.reg y) (s.reg x)) (diffByte (s.reg y) (s.reg x)) s

/-- 8XY6, SHR (R168): Y is ignored; the shift reads V[X] as the flag write left it. -/
def execShr (x _y : Reg) (s : State) : Result :=
  let t := s.setReg vf (lowBitFlag (s.reg x))
  completing s.pcNext (t.setReg x (shiftedRight (t.reg x)))

/-- 8XYE, SHL (R170): Y is ignored; the shift reads V[X] as the flag write left it. -/
def execShl (x _y : Reg) (s : State) : Result :=
  let t := s.setReg vf (highBitFlag (s.reg x))
  completing s.pcNext (t.setReg x (shiftedLeft (t.reg x)))

/-- `draw(0, NN)`: the RNG's answer, a free value in 0..NN (R173), and the state in which it has been used. -/
def draw (nn : Byte) (s : State) : Byte × State :=
  (BitVec.ofNat 8 (Config.rngDraw s.freeCount nn).val, s.useFree)

/-- CXNN, RND (R173). -/
def execRnd (x : Reg) (nn : Byte) (s : State) : Result :=
  writeResult x (draw nn s).1 (draw nn s).2

end Sys2Proof.Machine
end

