-- ==== Sys2Proof/Machine/Control.lean ====
section
/-!
DEFINITION. Control transfer (spec/41_control_flow.md). There are no delay slots and no link register (R148); targets
are not checked, a bad one faults at the next fetch (R140, R143).
-/
namespace Sys2Proof.Machine

/-- A skip: no register is written (R144 to R147). -/
def skipIf (cond : Bool) (s : State) : Result := completing (s.pcSkip cond) s

/-- 1NNN, JP (R140). -/
def execJp (nnn : Addr) (s : State) : Result := completing (target nnn) s

/-- BNNN, JP_V0 (R143): the sum is not reduced modulo 0x1000. -/
def execJpV0 (nnn : Addr) (s : State) : Result := completing (targetPlusV0 s nnn) s

/-- 2NNN, CALL (R141): the stack receives the address of the CALL itself; StackOverflow when 16 entries are in use
(R243). -/
def execCall (nnn : Addr) (s : State) : Result :=
  match s.push? s.pc with
  | some t => completing (target nnn) t
  | none => raising ⟨.stackOverflow, s.pc⟩ s

/-- 00EE, RET (R142): to the popped address plus 2 (spec/90_conflicts.md C2); StackUnderflow on an empty stack
(R244). -/
def execRet (s : State) : Result :=
  match s.pop? with
  | some (callPc, t) => completing (callPc + 2#16) t
  | none => raising ⟨.stackUnderflow, s.pc⟩ s

/-- 3XNN, SE_IMM (R144). -/
def execSeImm (x : Reg) (nn : Byte) (s : State) : Result := skipIf (s.reg x == nn) s

/-- 4XNN, SNE_IMM (R145). -/
def execSneImm (x : Reg) (nn : Byte) (s : State) : Result := skipIf (s.reg x != nn) s

/-- 5XY0, SE_REG (R146). -/
def execSeReg (x y : Reg) (s : State) : Result := skipIf (s.reg x == s.reg y) s

/-- 9XY0, SNE_REG (R147). -/
def execSneReg (x y : Reg) (s : State) : Result := skipIf (s.reg x != s.reg y) s

end Sys2Proof.Machine
end

