-- ==== Sys2Proof/Machine/Display.lean ====
section
/-!
DEFINITION. The framebuffer instructions (spec/44_display.md).
-/
namespace Sys2Proof.Machine

/-- 00E0, CLS (R201): VF is not touched. -/
def execCls (s : State) : Result := completing s.pcNext (s.setFB Framebuffer.blank)

/-- The check of DRW (R202): a sprite of no rows reads nothing and cannot fault. -/
def spriteFault? (s : State) (n : Nibble) : Option Raised :=
  if 0 < n.toNat then blockFault? s (n.toNat - 1) else none

/-- DXYN, DRW (R202): the coordinates are read before VF is written. -/
def execDrw (x y : Reg) (n : Nibble) (s : State) : Result :=
  match spriteFault? s n with
  | some r => raising r s
  | none =>
    match loadBlock s.M (effAddr s 0) n.toNat with
    | .ok rows =>
      let d := drawRows (s.reg x).toNat (s.reg y).toNat rows ⟨s.FB, false⟩
      completing s.pcNext ((s.setReg vf (collisionFlag d)).setFB d.pixels)
    | .error r => raising r s

end Sys2Proof.Machine
end

