-- ==== Sys2Proof/Machine/IndexMemory.lean ====
section
/-!
DEFINITION. The index register and the register block transfers (spec/43_index_memory.md). The transfers check the
whole block before the first access and leave I alone.
-/
namespace Sys2Proof.Machine

/-- ANNN, LD_I (R190). -/
def execLdI (nnn : Addr) (s : State) : Result := completing s.pcNext (s.setI nnn)

/-- FX1E, ADD_I_VX (R191): the sum is computed first, then VF, then I. -/
def execAddIVx (x : Reg) (s : State) : Result :=
  completing s.pcNext
    ((s.setReg vf (indexFlag s.I (s.reg x))).setI (indexResult s.I (s.reg x)))

/-- FX55, ST_MEM (R192). -/
def execStMem (x : Reg) (s : State) : Result :=
  match blockFault? s x.val with
  | some r => raising r s
  | none =>
    match storeBlock s.M (effAddr s 0) (s.regsUpTo x) with
    | .ok m => completing s.pcNext (s.setMem m)
    | .error r => raising r s

/-- FX65, LD_MEM (R193). -/
def execLdMem (x : Reg) (s : State) : Result :=
  match blockFault? s x.val with
  | some r => raising r s
  | none =>
    match loadBlock s.M (effAddr s 0) (x.val + 1) with
    | .ok bs => completing s.pcNext (s.setRegs bs)
    | .error r => raising r s

end Sys2Proof.Machine
end

