-- ==== Sys2Proof/Machine/KeysTimers.lean ====
section
/-!
DEFINITION. Keypad and timer instructions (spec/45_keys_timers.md). FX0A is two transitions of the core: its entry is
`execLdVxK`, its completion `waitComplete`, which the core makes when a down event is in the queue (R224).
-/
namespace Sys2Proof.Machine

/-- A key skip: it asks for the state of the key that V[X] names (R220, R221). -/
def skipIfKey (x : Reg) (down : Bool) (s : State) : Result :=
  match keyOperand (s.reg x) with
  | .error r => raising r s
  | .ok k => completing (s.pcSkip (s.keyState k == down)) s

/-- EX9E, SKP (R220). -/
def execSkp (x : Reg) (s : State) : Result := skipIfKey x true s

/-- EXA1, SKNP (R221). -/
def execSknp (x : Reg) (s : State) : Result := skipIfKey x false s

/-- FX07, LD_VX_DT (R222): DT as it is before this step's countdown. -/
def execLdVxDt (x : Reg) (s : State) : Result := completing s.pcNext (s.setReg x s.DT)

/-- FX15, LD_DT_VX (R223): this step's countdown acts on the new value. -/
def execLdDtVx (x : Reg) (s : State) : Result := completing s.pcNext (s.setDT (s.reg x))

/-- FX18, LD_ST_VX (R225): as FX15. -/
def execLdStVx (x : Reg) (s : State) : Result := completing s.pcNext (s.setST (s.reg x))

/-- The state suspended in FX0A: every queued event is discarded and the core waits; pc, timers and registers are
unchanged (R224). The transition was a CoreExec, so DRAIN is the next phase (R120; DEDUCED, notes/assumptions/9.md). -/
def State.suspend (s : State) : State := { s with EQ := [], wait := true, phase := .drain }

/-- FX0A, LD_VX_K, the entry (R224). X is not lost: CoreExec has latched the opcode in IR, and the completion takes X
from `IR[11:8]` (R36). -/
def execLdVxK (_x : Reg) (s : State) : Result := .next s.suspend

/-- FX0A, the effect of ending with key k: `V[IR[11:8]] <- k; wait <- 0; pc <- pc + 2; Tick(); phase <- DRAIN`
(R224). -/
def State.endWait (s : State) (k : Key) : State :=
  ({ s.setReg (fieldX s.IR) (BitVec.ofNat 8 k.val) with wait := false }).complete s.pcNext

/-- CoreWaitComplete (R224): all events are discarded, ups and downs alike. -/
def waitComplete (k : Key) (s : State) : State := { s.endWait k with EQ := [] }

end Sys2Proof.Machine
end

