-- ==== Sys2Proof/Machine/NoOp.lean ====
section
/-!
DEFINITION. The three instructions without semantics of their own (spec/40_step_cycle.md section 7, R128): pc advances
by 2, the timers count, nothing else changes.
-/
namespace Sys2Proof.Machine

/-- The no-op default (R128). -/
def noOp (s : State) : Result := completing s.pcNext s

/-- 0NNN, SYS (R129). -/
def execSys (_nnn : Addr) (s : State) : Result := noOp s

/-- FX29, LD_F_VX (R130): I is not changed, there is no font. -/
def execLdFVx (_x : Reg) (s : State) : Result := noOp s

/-- FX33, LD_B_VX (R131): no memory byte is written. -/
def execLdBVx (_x : Reg) (s : State) : Result := noOp s

end Sys2Proof.Machine
end

