-- ==== Sys2Proof/Machine/Cycle.lean ====
section
/-!
DEFINITION. The transitions of the core (spec/40_step_cycle.md R120): CoreDrain, CoreExec and CoreWaitComplete. Each
is one atomic transition, and the host may move between any two of them.
-/
namespace Sys2Proof.Machine

/-- The core may move at all: `run = 1` and `fault = NONE` (R120). -/
def State.coreRuns (s : State) : Bool := s.run && s.fault == .none

/-- CoreDrain (R254): every queued event is applied to K, oldest first, and EXEC is the next phase. -/
def coreDrain (s : State) : State :=
  { s with K := applyEvents s.K s.EQ, EQ := [], phase := .exec }

/-- CoreExec (R121): fetch, latch, decode, execute. The phases run in this order and the first fault ends the step
(R248). A faulting step whose fetch succeeded leaves the opcode in IR (R127, spec/90_conflicts.md C12). -/
def coreExec (s : State) : Result :=
  match fetch s with
  | .error r => raising r s
  | .ok op =>
    match decode op with
    | .error _ => raising ⟨.decodeError, op⟩ (s.latch op)
    | .ok i => exec i (s.latch op)

/-- The core suspended in FX0A: it completes when the queue holds a down event (R224). When it holds none no
transition is enabled (U17) and the state stays as it is (DESIGN CHOICE, notes/assumptions/8.md). -/
def coreWait (s : State) : Result :=
  match oldestDown s.EQ with
  | some k => .next (waitComplete k s)
  | none => .next s

/-- The core's next transition (R120). When none is enabled, `run = 0` or after a fault (U18), the state stays as it is
(DESIGN CHOICE, notes/assumptions/8.md). -/
def coreTurn (s : State) : Result :=
  if s.coreRuns then
    if s.wait then coreWait s
    else
      match s.phase with
      | .drain => .next (coreDrain s)
      | .exec => coreExec s
  else .next s

end Sys2Proof.Machine
end

