-- ==== Sys2Proof/Machine/HostPort.lean ====
section
/-!
DEFINITION. The host's transitions (spec/60_exceptions.md section 6, spec/70_reset_and_hazards.md) and the schedule
that says whose transition is next. A host read changes nothing of the machine; what it returned is appended to
`State.reads`, the host's own record.
-/
namespace Sys2Proof.Machine

/-- Reset (R280), the one way out of a fault or a stop. It sets the machine's state; the capacity of EQ is a parameter
and stays. The host's own fields stay, and so does the count of free values, so that no free value is used twice
(notes/assumptions/16.md). -/
def hostReset (s : State) : State :=
  { State.reset with
    eqDepth := s.eqDepth, schedule := s.schedule, reads := s.reads, freeCount := s.freeCount }

/-- HostLoadROM (R284), and RomTooLarge (R285). R33 and D26 say it is offered once per reset; the precondition of R284,
`started = 0`, does not count loads. The MODEL'S CHOICE is the precondition alone: the load may be repeated until
HostStart (DESIGN CHOICE, notes/assumptions/18.md). -/
def hostLoadROM (bytes : List Byte) (s : State) : Result :=
  if s.started then .fault .romLoadNotEnabled
  else if Config.romMax < bytes.length then .refused .romTooLarge
  else .next (s.setMem (s.M.copy Config.progBase bytes))

/-- HostStart (R255). Its precondition is all it needs: R255 says "after the ROM load" as well, and a start without a
load is let through, which is the MODEL'S CHOICE (DESIGN CHOICE, notes/assumptions/18.md). -/
def hostStart (s : State) : Result :=
  if s.started || s.fault != .none then .fault .startNotEnabled
  else .next { s with run := true, started := true }

/-- The run flag turns to 0 during a key wait (R257): the instruction is either abandoned or completed with an
unspecified key, and which of the two is a free value. `wait` is 0 in both. -/
def stopWaiting (s : State) : State :=
  match Config.stopDuringWait s.freeCount with
  | none => { s.useFree with run := false, wait := false }
  | some k => { (s.endWait k).useFree with run := false }

/-- HostStop (R256, R257). -/
def hostStop (s : State) : State :=
  if s.run && s.wait then stopWaiting s else { s with run := false }

/-- The queue has room for one more event: always, when its capacity is unbounded (R7, D19). -/
def State.queueHasRoom (s : State) : Bool :=
  match s.eqDepth with
  | none => true
  | some d => s.EQ.length < d

/-- HostEnqueue (R253); into a full queue it is no step of the host (U6). -/
def hostEnqueue (k : Key) (down : Bool) (s : State) : Result :=
  if s.queueHasRoom then .next { s with EQ := s.EQ ++ [⟨k, down⟩] } else .refused .queueFull

/-- The host records what a read returned. -/
def State.record (s : State) (r : Reading) : State := { s with reads := s.reads ++ [r] }

/-- HostReadFB between two core transitions: the framebuffer exactly (R258). -/
def hostReadFB (s : State) : State := s.record (.framebuffer s.FB)

/-- HostReadStatus (R259). -/
def hostReadStatus (s : State) : State := s.record (.status s.run s.fault s.faultInfo s.wait s.ST)

/-- The grid that a HostReadFB overlapping a core transition returns: each pixel, independently, is the one before or
the one after it (R258). Which is a free value. -/
def tornGrid (use : Nat) (before after : Framebuffer) : Framebuffer :=
  Vector.ofFn fun y =>
    (after[y] &&& Config.tornRow use y) ||| (before[y] &&& ~~~ Config.tornRow use y)

/-- A core transition with a HostReadFB that overlaps it (R258). The rule speaks of the overlap with ONE CoreExec, and
one is all that this read overlaps. What a read spanning two or more draws or clears returns, pixel by pixel, the spec
leaves open: leaving such a read out is the MODEL'S CHOICE (DESIGN CHOICE, notes/assumptions/4.md). -/
def coreTurnWithRead (s : State) : Result :=
  match coreTurn s with
  | .next t => .next (t.useFree.record (.framebuffer (tornGrid t.freeCount s.FB t.FB)))
  | .fault f => .fault f
  | .refused r => .refused r

/-- One move of the host. -/
def hostTurn (m : HostMove) (s : State) : Result :=
  match m with
  | .reset => .next (hostReset s)
  | .loadROM bytes => hostLoadROM bytes s
  | .start => hostStart s
  | .stop => .next (hostStop s)
  | .enqueue k down => hostEnqueue k down s
  | .readFB => .next (hostReadFB s)
  | .readStatus => .next (hostReadStatus s)

/-- The turn that is next, and the state once it is off the schedule: the core's when nothing is scheduled. -/
def State.nextTurn (s : State) : Turn × State :=
  match s.schedule with
  | [] => (.core, s)
  | t :: rest => (t, { s with schedule := rest })

/-- One transition of the machine: of the core or of the host, as the schedule says (R252). -/
def transition (s : State) : Result :=
  match s.nextTurn with
  | (.core, t) => coreTurn t
  | (.coreWithRead, t) => coreTurnWithRead t
  | (.host m, t) => hostTurn m t

/-- s made ready to run the opcode `op` in its very next step: the two bytes at pc, big-endian (R64), and all that
lets the core fetch them: it runs, is not faulted and not waiting, its next transition is CoreExec, and the turn is
its own. A pc at which no instruction can be fetched (above 0x0FFE) becomes 0x0200. -/
def State.armed (s : State) (op : Word) : State :=
  let pc := if s.pc.toNat ≤ 0x0FFE then s.pc else BitVec.ofNat 16 Config.progBase
  { s with
    pc := pc
    M := (s.M.set pc.toNat (highByte op)).set (pc.toNat + 1) (lowByte op)
    run := true
    started := true
    wait := false
    fault := .none
    faultInfo := 0x0000#16
    phase := .exec
    schedule := .core :: s.schedule }

end Sys2Proof.Machine
end

