-- ==== Sys2Proof/Machine/Step.lean ====
section
/-!
DEFINITION. One step of the machine, and the host's way of placing an instruction. A step is ONE atomic transition
(spec/40_step_cycle.md R120, spec/60_exceptions.md R252): a CoreDrain, a CoreExec, a CoreWaitComplete or a host move.
-/
namespace Sys2Proof.Machine

/-- One transition, of the agent whose turn it is. -/
def step (s : State) : Host.Outcome State Fault Refusal := Sys2Proof.Machine.transition s

/-- s with the instruction of a table word placed where the very next step fetches (notes/assumptions/10.md). -/
def State.withFetchWord (s : State) (nbits w : Nat) : State := s.armed (tableWord nbits w)

end Sys2Proof.Machine
end

