-- ==== Sys2Proof/Safety.lean ====
section
/-!
DEFINITION. The terms in which claims about the machine are stated: the invariant of spec/10_state.md R39, what it
means that a part of the state is unchanged, what a completed and what a faulting instruction leave, and runs.
-/
namespace Sys2Proof.Machine

/-! ### The invariant -/

/-- What holds in every reachable state: R39, with the bound on stack entries that its bound on pc needs (a pushed pc
was fetched from, R142), R36 for the latch, R240 for `fault_info` under NONE, R7 for a bounded queue, and the memory's
canonical form. -/
structure State.Inv (s : State) : Prop where
  /-- Memory is in canonical form. -/
  memory : s.M.wf
  /-- `pc <= 0x10FE` (R23, R39). -/
  pcRange : s.pc.toNat ≤ 0x10FE
  /-- Every entry in use holds the address of a CALL that was fetched (R142). -/
  stackRange : ∀ d : Fin 16, d.val < s.sp.val → s.stack[d].toNat ≤ 0x0FFE
  /-- `fault != NONE` implies `run = 0` (R39). -/
  faultHalts : s.fault ≠ .none → s.run = false
  /-- With no fault, `fault_info` is 0x0000 (R240). -/
  noFaultNoInfo : s.fault = .none → s.faultInfo = 0x0000#16
  /-- `wait = 1` implies `fault = NONE` and a running core: a stop ends the wait (R39, R257). -/
  waitRuns : s.wait = true → s.run = true ∧ s.fault = .none
  /-- The core runs only after HostStart (R33). -/
  runStarted : s.run = true → s.started = true
  /-- While `wait = 1`, IR equals `M[pc] || M[pc+1]` and is an FX0A (R36). -/
  waitLatch : s.wait = true → fetch s = .ok s.IR ∧ ∃ x, decode s.IR = .ok (.ldVxK x)
  /-- A bounded queue never holds more events than its capacity (R7, U6). -/
  queueFits : ∀ d, s.eqDepth = some d → s.EQ.length ≤ d

/-! ### What is unchanged -/

/-- Every V register outside `dst` is unchanged. -/
def SameRegsBut (dst : List Reg) (s t : State) : Prop := ∀ r : Reg, r ∉ dst → t.reg r = s.reg r

/-- The depth and every entry of the return stack are unchanged. -/
def SameStack (s t : State) : Prop := t.sp = s.sp ∧ ∀ d : Fin 16, t.stack[d] = s.stack[d]

/-- Every byte of memory reads as before. -/
def SameMemory (s t : State) : Prop := ∀ a : Nat, t.M.get a = s.M.get a

/-- Every pixel is as before. -/
def SameScreen (s t : State) : Prop := ∀ (px : Fin 64) (py : Fin 32), t.FB.get px py = s.FB.get px py

/-- The key-state vector and the event queue are unchanged. -/
def SameKeypad (s t : State) : Prop := (∀ k : Key, t.K[k] = s.K[k]) ∧ t.EQ = s.EQ

/-- The status items and the latch are unchanged. -/
def SameStatus (s t : State) : Prop :=
  t.run = s.run ∧ t.started = s.started ∧ t.wait = s.wait ∧ t.fault = s.fault ∧ t.faultInfo = s.faultInfo ∧
    t.IR = s.IR

/-- The host's schedule, what it has read and the capacity of its queue are unchanged. -/
def SameHost (s t : State) : Prop := t.schedule = s.schedule ∧ t.reads = s.reads ∧ t.eqDepth = s.eqDepth

/-- Keypad, status and host: what no completed instruction but FX0A touches. -/
structure CommonFrame (s t : State) : Prop where
  keypad : SameKeypad s t
  status : SameStatus s t
  host : SameHost s t

/-- Nothing but the V registers in `dst`, pc, phase and the timers has changed. -/
structure RegisterFrame (dst : List Reg) (s t : State) : Prop where
  regs : SameRegsBut dst s t
  index : t.I = s.I
  stack : SameStack s t
  memory : SameMemory s t
  screen : SameScreen s t
  common : CommonFrame s t

/-- Registers, stack, memory, screen, keys, status and latch are unchanged; the event queue and the host's record are
not spoken of. -/
structure RegisterFrameWithoutQueue (s t : State) : Prop where
  regs : SameRegsBut [] s t
  index : t.I = s.I
  stack : SameStack s t
  memory : SameMemory s t
  screen : SameScreen s t
  keys : ∀ k : Key, t.K[k] = s.K[k]
  status : SameStatus s t

/-! ### How an instruction ends -/

/-- Each timer has counted once, independently, with floor 0 (R126): subtraction of natural numbers. -/
def TimersCounted (s t : State) : Prop := t.DT.toNat = s.DT.toNat - 1 ∧ t.ST.toNat = s.ST.toNat - 1

/-- pc is `nextPc` and CoreDrain is next. -/
def Advances (nextPc : Word) (t : State) : Prop := t.pc = nextPc ∧ t.phase = .drain

/-- The state after a fault (R241): the cause, the value, the run flag cleared, and nothing else changed. -/
def HaltsWith (cause : FaultCause) (info : Word) (s t : State) : Prop :=
  t = { s with fault := cause, faultInfo := info, run := false }

/-! ### Transitions and runs -/

/-- The next turn is the core's. -/
def CoreMoves (s : State) : Prop := s.schedule = [] ∨ ∃ rest, s.schedule = .core :: rest

/-- CoreExec is enabled (R120) and it is the core's turn. -/
structure ExecTurn (s : State) : Prop where
  turn : CoreMoves s
  runs : s.run = true
  noFault : s.fault = .none
  noWait : s.wait = false
  phase : s.phase = .exec

/-- CoreDrain is enabled (R120) and it is the core's turn. -/
structure DrainTurn (s : State) : Prop where
  turn : CoreMoves s
  runs : s.run = true
  noFault : s.fault = .none
  noWait : s.wait = false
  phase : s.phase = .drain

/-- The event that a turn enqueues, if it is a HostEnqueue. -/
def Turn.event? : Turn → Option KeyEvent
  | .host (.enqueue k d) => some ⟨k, d⟩
  | .core | .coreWithRead | .host .reset | .host (.loadROM _) | .host .start | .host .stop | .host .readFB
  | .host .readStatus => none

/-- The queue's capacity, if it has one, is at least n (R7, U6). -/
def QueueHolds (s : State) (n : Nat) : Prop := ∀ d, s.eqDepth = some d → n ≤ d

/-- `n` steps, stopping at the first that has no successor. -/
def runFor : Nat → State → Result
  | 0, s => .next s
  | n + 1, s =>
    match step s with
    | .next t => runFor n t
    | .fault f => .fault f
    | .refused r => .refused r

/-- A safe run: `n` steps have successors and none of the states shows a fault of the hardware. -/
def SafeFor : Nat → State → Prop
  | 0, s => s.fault = .none
  | n + 1, s => s.fault = .none ∧ ∃ t, step s = .next t ∧ SafeFor n t

/-! ### Opcodes -/

/-- The opcodes that the decoder accepts, by leading nibble (R98, R103). -/
abbrev LegalOpcode (op : Word) : Prop :=
  let group := op.toNat / 4096
  let n := op.toNat % 16
  let nn := op.toNat % 256
  group ∈ [0x0, 0x1, 0x2, 0x3, 0x4, 0x6, 0x7, 0xA, 0xB, 0xC, 0xD] ∨
  (group ∈ [0x5, 0x9] ∧ n = 0) ∨
  (group = 0x8 ∧ n ∈ [0x0, 0x1, 0x2, 0x3, 0x4, 0x5, 0x6, 0x7, 0xE]) ∨
  (group = 0xE ∧ nn ∈ [0x9E, 0xA1]) ∨
  (group = 0xF ∧ nn ∈ [0x07, 0x0A, 0x15, 0x18, 0x1E, 0x29, 0x33, 0x55, 0x65])

/-- The seven instructions that write VF as a side effect (R21). -/
def writesFlag : Instr → Bool
  | .addReg _ _ | .sub _ _ | .subn _ _ | .shr _ _ | .shl _ _ | .addIVx _ | .drw _ _ _ => true
  | .cls | .ret | .sys _ | .jp _ | .call _ | .seImm _ _ | .sneImm _ _ | .seReg _ _ | .ldImm _ _ | .addImm _ _
  | .ldReg _ _ | .or _ _ | .and _ _ | .xor _ _ | .sneReg _ _ | .ldI _ | .jpV0 _ | .rnd _ _ | .skp _ | .sknp _
  | .ldVxDt _ | .ldVxK _ | .ldDtVx _ | .ldStVx _ | .ldFVx _ | .ldBVx _ | .stMem _ | .ldMem _ => false

/-- The X field, of an instruction that has one (R92). -/
def xField : Instr → Option Reg
  | .cls | .ret | .sys _ | .jp _ | .call _ | .ldI _ | .jpV0 _ => none
  | .seImm x _ | .sneImm x _ | .seReg x _ | .ldImm x _ | .addImm x _ | .ldReg x _ | .or x _ | .and x _ | .xor x _
  | .addReg x _ | .sub x _ | .shr x _ | .subn x _ | .shl x _ | .sneReg x _ | .rnd x _ | .drw x _ _ | .skp x
  | .sknp x | .ldVxDt x | .ldVxK x | .ldDtVx x | .ldStVx x | .addIVx x | .ldFVx x | .ldBVx x | .stMem x
  | .ldMem x => some x

/-! ### Sprites -/

/-- A set bit of the sprite of n rows at I, drawn at (V[x], V[y]), falls on pixel (px, py) (R202, R203). -/
def SpriteCovers (s : State) (x y : Reg) (n : Nibble) (px : Fin 64) (py : Fin 32) : Prop :=
  ∃ row bit : Nat, row < n.toNat ∧ bit < 8 ∧ px.val = ((s.reg x).toNat + bit) % 64 ∧
    py.val = ((s.reg y).toNat + row) % 32 ∧ (s.M.get (s.I.toNat + row)).getLsbD (7 - bit) = true

end Sys2Proof.Machine
end

