-- ==== Sys2Proof/Certificates/Slice0/Obligations.lean ====
section
/-!
DEFINITION. The statements for the provers, in the order of OBLIGATIONS.json. A statement marked "decision D<n>" rests on a
choice the spec records as its own in spec/92_eei_decisions.md; one that names notes/assumptions/<n>.md rests on the
model's own choice. Every statement is about all states that meet its hypotheses, reachable or not.
-/

open Sys2Proof Sys2Proof.Machine

/-- O1. Opcodes of every family, written out from the table and the vectors of section 2.1, decode to the instruction
the spec gives, and illegal ones are rejected as DecodeError of that opcode. Cites: 30_encoding.md section 3,
95_test_vectors.md S1 and section 2.1. -/
def Obligations.WrittenWordsDecodeAsTheSpecSays : Prop :=
  decode 0x00E0#16 = .ok .cls ∧ decode 0x00EE#16 = .ok .ret ∧ decode 0x00E1#16 = .ok (.sys 0x0E1#12) ∧
  decode 0x1FFF#16 = .ok (.jp 0xFFF#12) ∧ decode 0x5AB0#16 = .ok (.seReg 10 11) ∧
  decode 0x8AB7#16 = .ok (.subn 10 11) ∧ decode 0x8ABE#16 = .ok (.shl 10 11) ∧
  decode 0xA2F0#16 = .ok (.ldI 0x2F0#12) ∧ decode 0xCFFF#16 = .ok (.rnd 15 0xFF#8) ∧
  decode 0xDFFF#16 = .ok (.drw 15 15 0xF#4) ∧ decode 0xE0A1#16 = .ok (.sknp 0) ∧
  decode 0xF007#16 = .ok (.ldVxDt 0) ∧ decode 0xF165#16 = .ok (.ldMem 1) ∧
  decode 0x5AB1#16 = .error (.decodeError 0x5AB1#16) ∧ decode 0x8AB8#16 = .error (.decodeError 0x8AB8#16) ∧
  decode 0xE19F#16 = .error (.decodeError 0xE19F#16) ∧ decode 0xF075#16 = .error (.decodeError 0xF075#16)

/-- O2. For every well-formed instruction, with every operand at every value its field admits, the decoder reads the
instruction back from its opcode, and from its two bytes at the head of any byte string, leaving the rest. That a
field the hardware ignores is an operand at all (NNN of 0NNN, Y of 8XY6 and 8XYE, X of FX29 and FX33) is the MODEL'S
CHOICE, notes/assumptions/17.md. Cites: 30_encoding.md sections 1 to 3. -/
def Obligations.DecodeOfEncodeIsTheInstruction : Prop :=
  ∀ i : Instr, i.WellFormed →
    decode (encode i) = .ok i ∧ ∀ rest : List Byte, decodeBytes (encodeBytes i ++ rest) = .ok (i, rest)

/-- O3. If the decoder accepts an opcode as an instruction, that instruction is well-formed and its encoding is that
opcode: no bit of an accepted opcode is dropped, and no term of the syntax has two opcodes. That holds because the
fields the hardware ignores are kept in the syntax, which is the MODEL'S CHOICE, notes/assumptions/17.md: for the
hardware all 16 values of Y in 8XY6, for example, are one instruction. Cites: 30_encoding.md sections 1 to 4. -/
def Obligations.EncodeOfDecodeIsTheOpcode : Prop :=
  ∀ (op : Word) (i : Instr), decode op = .ok i → i.WellFormed ∧ encode i = op

/-- O4. An opcode of the legal set, spelled out by leading nibble and minor opcode, is accepted; any other is rejected
as DecodeError of that opcode. The set is the spec's inference from its table ([derived: from rule R94]). Cites:
30_encoding.md section 4, 30_encoding.md section 6. -/
def Obligations.LegalOpcodesAreExactlyTheAccepted : Prop :=
  ∀ op : Word,
    (LegalOpcode op → ∃ i : Instr, decode op = .ok i) ∧
    (¬ LegalOpcode op → decode op = .error (.decodeError op))

/-- O5. The table has 35 entries. No opcode matches two of the entries 3 to 35. An opcode that matches entry 1 or entry
2 matches entry 3, none of the entries 4 to 35, and not the other of the two. Cites: 30_encoding.md section 6. -/
def Obligations.TableEntriesOverlapOnlyAtClsAndRet : Prop :=
  table.length = 35 ∧
  (∀ (op : Word) (j k : Nat) (r q : Row), 2 ≤ j → j < k → table[j]? = some r → table[k]? = some q →
    ¬ (r.hits op = true ∧ q.hits op = true)) ∧
  (∀ (op : Word) (j k : Nat) (r q : Row), j < 2 → table[j]? = some r → r.hits op = true → table[k]? = some q →
    (k = 2 → q.hits op = true) ∧ (k ≠ j → k ≠ 2 → q.hits op = false))

/-- O6. When it is the core's turn and CoreExec is enabled, and the two bytes at pc decode to i, the step is exec of i
at the state in which the turn has been taken off the schedule and the opcode latched in IR. The schedule is the
model's own (notes/assumptions/5.md). Cites: 40_step_cycle.md sections 1 to 4. -/
def Obligations.StepExecutesTheDecodedInstruction : Prop :=
  ∀ (s : State) (i : Instr), ExecTurn s → s.pc.toNat ≤ 0x0FFE →
    decode (joinBytes (s.M.get s.pc.toNat) (s.M.get (s.pc.toNat + 1))) = .ok i →
    step s = exec i { s with
      schedule := s.schedule.tail
      IR := joinBytes (s.M.get s.pc.toNat) (s.M.get (s.pc.toNat + 1)) }

/-- O7. When CoreExec is enabled and pc is above 0x0FFE, the step ends with fault = AddressFault, fault_info = pc, run =
0 and nothing else changed (IR included). The fault is the spec's decision D4, that it is precise D5; that phase
stays EXEC, not DRAIN, is DEDUCED, notes/assumptions/15.md. The schedule is the model's own
(notes/assumptions/5.md). Cites: 40_step_cycle.md section 2, 60_exceptions.md section 1, 92_eei_decisions.md D4, D5. -/
def Obligations.FetchAboveMemoryHalts : Prop :=
  ∀ s : State, ExecTurn s → 0x0FFE < s.pc.toNat →
    ∃ t : State, step s = .next t ∧ HaltsWith .addressFault s.pc { s with schedule := s.schedule.tail } t

/-- O8. When CoreExec is enabled and two bytes can be fetched: an illegal opcode ends the step with fault = DecodeError,
the opcode in fault_info and in IR, run = 0, nothing else changed; a legal opcode decodes to an instruction and the
step is its execution. fault_info is the spec's decision D21, IR its resolution C12, the precise fault D5; that
phase stays EXEC is DEDUCED, notes/assumptions/15.md. The schedule is the model's own (notes/assumptions/5.md).
Cites: 70_reset_and_hazards.md section 3, 60_exceptions.md section 1, 92_eei_decisions.md D5, D21, 90_conflicts.md
C12. -/
def Obligations.IllegalOpcodeHaltsLegalOpcodeExecutes : Prop :=
  ∀ (s : State) (op : Word), ExecTurn s → s.pc.toNat ≤ 0x0FFE →
    op = joinBytes (s.M.get s.pc.toNat) (s.M.get (s.pc.toNat + 1)) →
    (¬ LegalOpcode op → ∃ t : State, step s = .next t ∧
      HaltsWith .decodeError op { s with schedule := s.schedule.tail, IR := op } t) ∧
    (LegalOpcode op → ∃ i : Instr, decode op = .ok i ∧
      step s = exec i { s with schedule := s.schedule.tail, IR := op })

/-- O9. When CoreDrain is enabled, the step gives K[k] the direction of the youngest queued event for k, leaves a key
with no event alone, empties EQ, makes EXEC the next phase and changes nothing else. That the core drains, once
before each instruction, is the spec's decision D18. Cites: 60_exceptions.md section 6, 92_eei_decisions.md D18. -/
def Obligations.DrainAppliesEventsYoungestLast : Prop :=
  ∀ s : State, DrainTurn s →
    ∃ t : State, step s = .next t ∧
      (∀ k : Key, (∀ e ∈ s.EQ, e.key ≠ k) → t.K[k] = s.K[k]) ∧
      (∀ (older younger : List KeyEvent) (k : Key) (d : Bool), s.EQ = older ++ ⟨k, d⟩ :: younger →
        (∀ e ∈ younger, e.key ≠ k) → t.K[k] = d) ∧
      t = { s with schedule := s.schedule.tail, K := t.K, EQ := [], phase := .exec }

/-- O10. When run = 0, or a fault is recorded, or the core waits and the queue holds no down event, the core's turn
changes nothing but the schedule. The spec has no core transition there (stuck, U17 and U18); that a turn then
leaves the state as it is, is the MODEL'S CHOICE, notes/assumptions/8.md. Cites: 40_step_cycle.md section 1,
93_implementation_defined.md U17, U18. -/
def Obligations.CoreWithNothingEnabledStaysAsItIs : Prop :=
  ∀ s : State, CoreMoves s →
    (s.run = false ∨ s.fault ≠ .none ∨ (s.wait = true ∧ ∀ e ∈ s.EQ, e.down = false)) →
    step s = .next { s with schedule := s.schedule.tail }

/-- O11. State.reset is in canonical form and within every bound of the invariant (10_state.md section 8). Cites:
10_state.md sections 7 and 8. -/
def Obligations.ResetStateMeetsTheStateBounds : Prop :=
  State.reset.Inv

/-- O12. From any state that meets the invariant, not only from reachable ones, a step that has a next state gives one
that meets it: memory stays in canonical form, pc <= 0x10FE, stacked addresses <= 0x0FFE, a fault means run = 0,
wait means a running core without fault whose IR is the FX0A at pc, fault_info is 0 without a fault, and a bounded
queue holds no more events than its capacity, which no step changes. That capacity is a field of the model's own
(notes/assumptions/3.md). The bounds are the spec's inference (10_state.md section 8, marked derived) with the parts
they need. Cites: 10_state.md section 8, 10_state.md section 6, 92_eei_decisions.md D19. -/
def Obligations.EveryStepKeepsTheStateBounds : Prop :=
  ∀ s t : State, s.Inv → step s = .next t → t.Inv ∧ t.eqDepth = s.eqDepth

/-- O13. When the host's Reset is the next turn the step has a next state in which every V register, I, sp, stack entry,
timer, key, memory byte and pixel is zero, pc is 0x0200, EQ is empty, run, started and wait are 0, fault is NONE
with info 0 and phase is DRAIN. Details of reset are the spec's decision D26. That the schedule, the host's record
and the queue's capacity, fields of the model's own, stay is the MODEL'S CHOICE, notes/assumptions/16.md. Cites:
70_reset_and_hazards.md section 1, 10_state.md section 7, 92_eei_decisions.md D26. -/
def Obligations.ResetMoveRestoresEveryField : Prop :=
  ∀ (s : State) (rest : List Turn), s.schedule = .host .reset :: rest →
    ∃ t : State, step s = .next t ∧ (∀ r : Reg, t.reg r = 0x00#8) ∧ t.I = 0x000#12 ∧ t.pc = 0x0200#16 ∧
      t.sp.val = 0 ∧ (∀ d : Fin 16, t.stack[d] = 0x0000#16) ∧ t.DT = 0x00#8 ∧ t.ST = 0x00#8 ∧
      (∀ k : Key, t.K[k] = false) ∧ (∀ a : Nat, t.M.get a = 0x00#8) ∧
      (∀ (px : Fin 64) (py : Fin 32), t.FB.get px py = false) ∧ t.EQ = [] ∧ t.run = false ∧ t.started = false ∧
      t.wait = false ∧ t.fault = .none ∧ t.faultInfo = 0x0000#16 ∧ t.phase = .drain ∧
      t.schedule = rest ∧ t.reads = s.reads ∧ t.eqDepth = s.eqDepth

/-- O14. Once run is 0 after a start, no step other than the host's Reset sets it again or changes a register, pc, the
stack, a timer, a key, a byte of memory, a pixel, the fault record or wait; the host can only append events and
read. That a stop or fault is left only by reset is the spec's decisions D22, D25. Cites: 60_exceptions.md sections
5 and 6, 92_eei_decisions.md D22, D25. -/
def Obligations.StoppedMachineChangesOnlyByReset : Prop :=
  ∀ s t : State, s.run = false → s.started = true → s.schedule.head? ≠ some (.host .reset) →
    step s = .next t →
    RegisterFrameWithoutQueue s t ∧ t.pc = s.pc ∧ t.phase = s.phase ∧ t.DT = s.DT ∧ t.ST = s.ST ∧
      (∃ new : List KeyEvent, t.EQ = s.EQ ++ new)

/-- O15. From a state that is not waiting and has no fault, an instruction other than FX0A leaves wait = 0 and is over:
it has completed with CoreDrain next, or it has halted the core. FX0A leaves wait = 1. Cites: R227. -/
def Obligations.OnlyKeyWaitSuspends : Prop :=
  ∀ (i : Instr) (s t : State), s.wait = false → s.fault = .none → exec i s = .next t →
    (t.wait = true ↔ ∃ x : Reg, i = .ldVxK x) ∧
    ((∀ x : Reg, i ≠ .ldVxK x) → t.phase = .drain ∨ (t.fault ≠ .none ∧ t.run = false))

/-- O16. If an instruction changes the byte at an address, it is FX55 and the address lies in I .. I + X. Cites:
20_memory.md section 5. -/
def Obligations.MemoryWrittenOnlyByStore : Prop :=
  ∀ (i : Instr) (s t : State) (a : Nat), exec i s = .next t → t.M.get a ≠ s.M.get a →
    ∃ x : Reg, i = .stMem x ∧ s.I.toNat ≤ a ∧ a ≤ s.I.toNat + x.val

/-- O17. If an instruction changes a pixel of the framebuffer, it is the draw instruction or the clear-screen
instruction, and the clear can only turn it off. Cites: 44_display.md section 1, 10_state.md section 5. -/
def Obligations.ScreenWrittenOnlyByDrawAndClear : Prop :=
  ∀ (i : Instr) (s t : State) (px : Fin 64) (py : Fin 32), exec i s = .next t → t.FB.get px py ≠ s.FB.get px py →
    (i = .cls ∧ t.FB.get px py = false) ∨ ∃ (x y : Reg) (n : Nibble), i = .drw x y n

/-- O18. If an instruction changes the depth or an entry of the stack, it is CALL with depth one more and only the entry
at the old depth written, or RET with depth one less and no entry changed. That a popped entry keeps its bits is the
spec's decision D27. Cites: 10_state.md section 4, 92_eei_decisions.md D27. -/
def Obligations.StackWrittenOnlyByCallAndReturn : Prop :=
  ∀ (i : Instr) (s t : State), exec i s = .next t → ¬ SameStack s t →
    (∃ nnn : Addr, i = .call nnn ∧ t.sp.val = s.sp.val + 1 ∧
      ∀ d : Fin 16, d.val ≠ s.sp.val → t.stack[d] = s.stack[d]) ∨
    (i = .ret ∧ t.sp.val + 1 = s.sp.val ∧ ∀ d : Fin 16, t.stack[d] = s.stack[d])

/-- O19. If an instruction changes I, it is ANNN, which leaves NNN there, or FX1E, after which I is at most 0xFFE.
Cites: 10_state.md section 4, 43_index_memory.md section 1. -/
def Obligations.IndexWrittenOnlyByLoadAndAdd : Prop :=
  ∀ (i : Instr) (s t : State), exec i s = .next t → t.I ≠ s.I →
    (∃ nnn : Addr, i = .ldI nnn ∧ t.I = nnn) ∨ (∃ x : Reg, i = .addIVx x ∧ t.I.toNat ≤ 0xFFE)

/-- O20. If a step of core or host changes K, it is the core's turn (with or without an overlapping host read) with
CoreDrain enabled, or the host's Reset. Cites: 10_state.md section 5, 60_exceptions.md section 6. -/
def Obligations.KeyStateWrittenOnlyByDrainOrReset : Prop :=
  ∀ s t : State, step s = .next t → t.K ≠ s.K →
    s.schedule.head? = some (.host .reset) ∨
    ((CoreMoves s ∨ s.schedule.head? = some .coreWithRead) ∧
      s.run = true ∧ s.fault = .none ∧ s.wait = false ∧ s.phase = .drain)

/-- O21. If an instruction changes VF, it is one of the seven that write it as a flag, or its X field is 15. Cites:
10_state.md section 2. -/
def Obligations.FlagRegisterWriters : Prop :=
  ∀ (i : Instr) (s t : State), exec i s = .next t → t.reg 15 ≠ s.reg 15 →
    writesFlag i = true ∨ xField i = some 15

/-- O22. If an instruction raises a fault, the next state is the state before it with fault and fault_info written and
run cleared: no register, memory byte, pixel, timer, pc, sp, key or event changes. Precise faults are the spec's
decision D5; that phase stays EXEC is DEDUCED, notes/assumptions/15.md. Cites: 60_exceptions.md section 1,
40_step_cycle.md section 6, 92_eei_decisions.md D5. -/
def Obligations.FaultingInstructionChangesNothingElse : Prop :=
  ∀ (i : Instr) (s t : State), s.fault = .none → exec i s = .next t → t.fault ≠ .none →
    HaltsWith t.fault t.faultInfo s t

/-- O23. No instruction ends in a stop of the model: what the hardware calls a fault is a next state in which it is
recorded. Cites: 40_step_cycle.md section 1, 60_exceptions.md section 1. -/
def Obligations.EveryInstructionAnswersANextState : Prop :=
  ∀ (i : Instr) (s : State), ∃ t : State, exec i s = .next t

/-- O24. An instruction other than FX0A that completes leaves DT one lower, or 0 if it was 0, and ST likewise,
independently; after FX15 and FX18 the count is of the value written. The per-instruction rate and the count of the
writing step are the spec's decision D17. Cites: 40_step_cycle.md section 5, 92_eei_decisions.md D17. -/
def Obligations.TimersCountOncePerCompletedInstruction : Prop :=
  ∀ (i : Instr) (s t : State), s.fault = .none → exec i s = .next t → t.fault = .none →
    (∀ x : Reg, i ≠ .ldVxK x) →
    (∀ x : Reg, i = .ldDtVx x → t.DT.toNat = (s.reg x).toNat - 1) ∧
    ((∀ x : Reg, i ≠ .ldDtVx x) → t.DT.toNat = s.DT.toNat - 1) ∧
    (∀ x : Reg, i = .ldStVx x → t.ST.toNat = (s.reg x).toNat - 1) ∧
    ((∀ x : Reg, i ≠ .ldStVx x) → t.ST.toNat = s.ST.toNat - 1)

/-- O25. LD Vx, nn completes in every state: V[X] = NN, for X = 15 too; every other register, flag, memory and pixel is
unchanged, pc advances by 2, the timers count. Cites: R160. -/
def Obligations.LoadImmediateResult : Prop :=
  ∀ (x : Reg) (nn : Byte) (s : State), ∃ t : State, exec (.ldImm x nn) s = .next t ∧
    t.reg x = nn ∧ RegisterFrame [x] s t ∧ Advances (s.pc + 2#16) t ∧ TimersCounted s t

/-- O26. ADD Vx, nn completes in every state: V[X] = (V[X] + NN) mod 256, for X = 15 too; no other register changes, VF
in particular, even when the sum exceeds 255. Cites: R161. -/
def Obligations.AddImmediateResult : Prop :=
  ∀ (x : Reg) (nn : Byte) (s : State), ∃ t : State, exec (.addImm x nn) s = .next t ∧
    (t.reg x).toNat = ((s.reg x).toNat + nn.toNat) % 256 ∧ RegisterFrame [x] s t ∧ Advances (s.pc + 2#16) t ∧ TimersCounted s t

/-- O27. LD Vx, Vy completes in every state: V[X] = the old V[Y]; no other register changes, and none at all when X = Y.
Cites: R162. -/
def Obligations.CopyRegisterResult : Prop :=
  ∀ (x y : Reg) (s : State), ∃ t : State, exec (.ldReg x y) s = .next t ∧
    t.reg x = s.reg y ∧ RegisterFrame [x] s t ∧ (x = y → RegisterFrame [] s t) ∧ Advances (s.pc + 2#16) t ∧ TimersCounted s t

/-- O28. OR, AND and XOR complete in every state: each of the 8 bits of V[X] is the OR, AND or exclusive OR of the two
old bits; no other register changes, VF in particular; XOR with X = Y clears V[X]. Cites: R163, R164, R165. -/
def Obligations.BitwiseResults : Prop :=
  ∀ (x y : Reg) (s : State),
    (∃ t : State, exec (.or x y) s = .next t ∧
      (∀ b : Nat, b < 8 → (t.reg x).getLsbD b = ((s.reg x).getLsbD b || (s.reg y).getLsbD b)) ∧
      RegisterFrame [x] s t ∧ Advances (s.pc + 2#16) t ∧ TimersCounted s t) ∧
    (∃ t : State, exec (.and x y) s = .next t ∧
      (∀ b : Nat, b < 8 → (t.reg x).getLsbD b = ((s.reg x).getLsbD b && (s.reg y).getLsbD b)) ∧
      RegisterFrame [x] s t ∧ Advances (s.pc + 2#16) t ∧ TimersCounted s t) ∧
    (∃ t : State, exec (.xor x y) s = .next t ∧
      (∀ b : Nat, b < 8 → (t.reg x).getLsbD b = ((s.reg x).getLsbD b ^^ (s.reg y).getLsbD b)) ∧
      (x = y → t.reg x = 0x00#8) ∧ RegisterFrame [x] s t ∧ Advances (s.pc + 2#16) t ∧ TimersCounted s t)

/-- O29. ADD Vx, Vy completes in every state. V[X] = (V[X] + V[Y]) mod 256 of the old values, Y = 15 included. For X
other than 15, VF = 1 if the sum exceeds 255, else 0; for X = 15 the result is what VF holds, which is the spec's
decision D9. Cites: 42_alu.md section 3, 92_eei_decisions.md D9. -/
def Obligations.AddRegistersResult : Prop :=
  ∀ (x y : Reg) (s : State), ∃ t : State, exec (.addReg x y) s = .next t ∧
    (t.reg x).toNat = ((s.reg x).toNat + (s.reg y).toNat) % 256 ∧
    (x ≠ 15 → t.reg 15 = if (s.reg x).toNat + (s.reg y).toNat > 255 then 0x01#8 else 0x00#8) ∧
    RegisterFrame [x, 15] s t ∧ Advances (s.pc + 2#16) t ∧ TimersCounted s t

/-- O30. SUB (X - Y) and SUBN (Y - X) complete in every state; the destination is V[X]. The result is the difference of
the old values modulo 256; for X other than 15, VF = 0 when the minuend is below the subtrahend, else 1; for X = 15
the result is what VF holds (decision D9). Cites: 42_alu.md section 3, 92_eei_decisions.md D9. -/
def Obligations.SubtractResults : Prop :=
  ∀ (x y : Reg) (s : State),
    (∃ t : State, exec (.sub x y) s = .next t ∧
      ((t.reg x).toNat : Int) = ((s.reg x).toNat - (s.reg y).toNat : Int) % 256 ∧
      (x ≠ 15 → t.reg 15 = if (s.reg x).toNat < (s.reg y).toNat then 0x00#8 else 0x01#8) ∧
      RegisterFrame [x, 15] s t ∧ Advances (s.pc + 2#16) t ∧ TimersCounted s t) ∧
    (∃ t : State, exec (.subn x y) s = .next t ∧
      ((t.reg x).toNat : Int) = ((s.reg y).toNat - (s.reg x).toNat : Int) % 256 ∧
      (x ≠ 15 → t.reg 15 = if (s.reg y).toNat < (s.reg x).toNat then 0x00#8 else 0x01#8) ∧
      RegisterFrame [x, 15] s t ∧ Advances (s.pc + 2#16) t ∧ TimersCounted s t)

/-- O31. SHR and SHL complete in every state for X other than 15, whatever Y is: V[X] = old V[X] / 2, or old V[X] * 2
modulo 256; VF = the old bit 0, or the old bit 7; no other register changes, V[Y] in particular. X = 15 is the
statement FlagRegisterAsDestination. Cites: 42_alu.md section 4, 30_encoding.md section 4. -/
def Obligations.ShiftResults : Prop :=
  ∀ (x y : Reg) (s : State), x ≠ 15 →
    (∃ t : State, exec (.shr x y) s = .next t ∧ (t.reg x).toNat = (s.reg x).toNat / 2 ∧
      (t.reg 15).toNat = (s.reg x).toNat % 2 ∧ RegisterFrame [x, 15] s t ∧ Advances (s.pc + 2#16) t ∧ TimersCounted s t) ∧
    (∃ t : State, exec (.shl x y) s = .next t ∧ (t.reg x).toNat = (s.reg x).toNat * 2 % 256 ∧
      (t.reg 15).toNat = (s.reg x).toNat / 128 ∧ RegisterFrame [x, 15] s t ∧ Advances (s.pc + 2#16) t ∧ TimersCounted s t)

/-- O32. The table of final VF values with X = 15, from the order flag first, result second: 8FY4 gives (a + b) mod 256,
8FY5 (a - b) mod 256, 8FY7 (b - a) mod 256, 8FY6 gives 0, 8FYE gives 2 if a[7] = 1 and 0 otherwise, where a is the
old VF and b the old V[Y]; no other register changes. The order is the spec's decision D9. Cites: 42_alu.md section
5, 92_eei_decisions.md D9. -/
def Obligations.FlagRegisterAsDestination : Prop :=
  ∀ (y : Reg) (s : State),
    (∃ t : State, exec (.addReg 15 y) s = .next t ∧ t.reg 15 = s.reg 15 + s.reg y ∧ RegisterFrame [15] s t ∧ Advances (s.pc + 2#16) t ∧ TimersCounted s t) ∧
    (∃ t : State, exec (.sub 15 y) s = .next t ∧ t.reg 15 = s.reg 15 - s.reg y ∧ RegisterFrame [15] s t ∧ Advances (s.pc + 2#16) t ∧ TimersCounted s t) ∧
    (∃ t : State, exec (.subn 15 y) s = .next t ∧ t.reg 15 = s.reg y - s.reg 15 ∧ RegisterFrame [15] s t ∧ Advances (s.pc + 2#16) t ∧ TimersCounted s t) ∧
    (∃ t : State, exec (.shr 15 y) s = .next t ∧ t.reg 15 = 0x00#8 ∧ RegisterFrame [15] s t ∧ Advances (s.pc + 2#16) t ∧ TimersCounted s t) ∧
    (∃ t : State, exec (.shl 15 y) s = .next t ∧
      t.reg 15 = (if (s.reg 15).toNat ≥ 128 then 0x02#8 else 0x00#8) ∧ RegisterFrame [15] s t ∧ Advances (s.pc + 2#16) t ∧ TimersCounted s t)

/-- O33. RND Vx, nn completes in every state: V[X] is at most NN, so 0 when NN = 0; no other register changes, VF in
particular unless X = 15. Which value is a free value (notes/assumptions/1.md); treating it as a draw is the spec's
decision D16. Cites: 42_alu.md section 6, 92_eei_decisions.md D16. -/
def Obligations.RandomValueWithinBound : Prop :=
  ∀ (x : Reg) (nn : Byte) (s : State), ∃ t : State, exec (.rnd x nn) s = .next t ∧
    (t.reg x).toNat ≤ nn.toNat ∧ RegisterFrame [x] s t ∧ Advances (s.pc + 2#16) t ∧ TimersCounted s t

/-- O34. JP and JP V0 complete in every state: pc is NNN, or the exact sum of NNN and V[0] (at most 0x10FE, not
reduced); no register or flag changes. That a target is not checked is the spec's decisions D4, D7, D8. Cites:
41_control_flow.md section 1, 92_eei_decisions.md D4, D7, D8. -/
def Obligations.JumpResults : Prop :=
  ∀ (nnn : Addr) (s : State),
    (∃ t : State, exec (.jp nnn) s = .next t ∧ t.pc.toNat = nnn.toNat ∧ t.phase = .drain ∧
      RegisterFrame [] s t ∧ TimersCounted s t) ∧
    (∃ t : State, exec (.jpV0 nnn) s = .next t ∧ t.pc.toNat = nnn.toNat + (s.reg 0).toNat ∧ t.phase = .drain ∧
      RegisterFrame [] s t ∧ TimersCounted s t)

/-- O35. With fewer than 16 entries in use, CALL writes stack[sp] with pc, increments sp, sets pc to NNN and changes no
V register, no other entry and nothing else; with 16 in use it raises StackOverflow(pc) and changes nothing else:
the precise fault, decision D5, with pc as the value, D6; that phase stays EXEC after it is DEDUCED,
notes/assumptions/15.md. Cites: 41_control_flow.md section 2, 60_exceptions.md section 1, 92_eei_decisions.md D5,
D6. -/
def Obligations.CallPushesItsOwnAddress : Prop :=
  ∀ (nnn : Addr) (s : State),
    (s.sp.val < 16 → ∃ t : State, exec (.call nnn) s = .next t ∧ t.sp.val = s.sp.val + 1 ∧
      (∀ d : Fin 16, t.stack[d] = if d.val = s.sp.val then s.pc else s.stack[d]) ∧
      t.pc.toNat = nnn.toNat ∧ t.phase = .drain ∧ SameRegsBut [] s t ∧ t.I = s.I ∧ SameMemory s t ∧
      SameScreen s t ∧ CommonFrame s t ∧ TimersCounted s t) ∧
    (s.sp.val = 16 → ∃ t : State, exec (.call nnn) s = .next t ∧ HaltsWith .stackOverflow s.pc s t)

/-- O36. With at least one entry in use, RET decrements sp and sets pc to stack[sp] + 2, leaving every entry's bits and
everything else alone; with none it raises StackUnderflow(pc) and changes nothing else. The plus 2 is the spec's
decision D6 (conflict C2), the precise fault D5; that phase stays EXEC after it is DEDUCED, notes/assumptions/15.md.
Cites: 41_control_flow.md section 2, 60_exceptions.md section 1, 90_conflicts.md C2, 92_eei_decisions.md D5, D6. -/
def Obligations.ReturnResumesAfterTheCall : Prop :=
  ∀ s : State,
    (∀ d : Fin 16, s.sp.val = d.val + 1 → ∃ t : State, exec .ret s = .next t ∧ t.sp.val = d.val ∧
      t.pc = s.stack[d] + 2#16 ∧ (∀ e : Fin 16, t.stack[e] = s.stack[e]) ∧ t.phase = .drain ∧
      SameRegsBut [] s t ∧ t.I = s.I ∧ SameMemory s t ∧ SameScreen s t ∧ CommonFrame s t ∧ TimersCounted s t) ∧
    (s.sp.val = 0 → ∃ t : State, exec .ret s = .next t ∧ HaltsWith .stackUnderflow s.pc s t)

/-- O37. After a CALL at pc, in whatever state the subroutine has reached with the depth and the entries in use that the
CALL left, RET leaves pc at the CALL's address plus 2, the depth as before the CALL, and every entry then in use as
before the CALL. Rests on decision D6. Cites: 41_control_flow.md section 2, 95_test_vectors.md S6,
92_eei_decisions.md D6. -/
def Obligations.CallThenMatchingReturn : Prop :=
  ∀ (nnn : Addr) (s : State), s.sp.val < 16 →
    ∃ t : State, exec (.call nnn) s = .next t ∧
      ∀ u : State, u.sp = t.sp → (∀ d : Fin 16, d.val < t.sp.val → u.stack[d] = t.stack[d]) →
        ∃ w : State, exec .ret u = .next w ∧ w.pc = s.pc + 2#16 ∧ w.sp = s.sp ∧
          ∀ d : Fin 16, d.val < s.sp.val → w.stack[d] = s.stack[d]

/-- O38. SE Vx, nn and SNE Vx, nn complete in every state: pc advances by 4 when the condition holds, else by 2; no
register or flag changes. Cites: R144, R145. -/
def Obligations.SkipImmediateResults : Prop :=
  ∀ (x : Reg) (nn : Byte) (s : State),
    (∃ t : State, exec (.seImm x nn) s = .next t ∧
      Advances (if s.reg x = nn then s.pc + 4#16 else s.pc + 2#16) t ∧
      RegisterFrame [] s t ∧ TimersCounted s t) ∧
    (∃ t : State, exec (.sneImm x nn) s = .next t ∧
      Advances (if s.reg x ≠ nn then s.pc + 4#16 else s.pc + 2#16) t ∧
      RegisterFrame [] s t ∧ TimersCounted s t)

/-- O39. SE Vx, Vy and SNE Vx, Vy complete in every state: pc advances by 4 when the condition holds, else by 2, so X =
Y always skips in the first and never in the second; no register or flag changes. In both encodings a last nibble
other than 0 is a DecodeError. Cites: R146, R147. -/
def Obligations.SkipRegisterResults : Prop :=
  (∀ (x y : Reg) (s : State),
    (∃ t : State, exec (.seReg x y) s = .next t ∧
      Advances (if s.reg x = s.reg y then s.pc + 4#16 else s.pc + 2#16) t ∧
      RegisterFrame [] s t ∧ TimersCounted s t) ∧
    (∃ t : State, exec (.sneReg x y) s = .next t ∧
      Advances (if s.reg x ≠ s.reg y then s.pc + 4#16 else s.pc + 2#16) t ∧
      RegisterFrame [] s t ∧ TimersCounted s t)) ∧
  (∀ (x y : Reg) (n : Nibble), n ≠ 0x0#4 →
    decode (encXYN 0x5#4 x y n) = .error (.decodeError (encXYN 0x5#4 x y n)) ∧
    decode (encXYN 0x9#4 x y n) = .error (.decodeError (encXYN 0x9#4 x y n)))

/-- O40. LD I, nnn completes in every state: I = NNN, 0xFFF included; no V register or flag, no memory and nothing else
changes. Cites: R190. -/
def Obligations.LoadIndexResult : Prop :=
  ∀ (nnn : Addr) (s : State), ∃ t : State, exec (.ldI nnn) s = .next t ∧ t.I = nnn ∧
    SameRegsBut [] s t ∧ SameStack s t ∧ SameMemory s t ∧ SameScreen s t ∧ CommonFrame s t ∧ Advances (s.pc + 2#16) t ∧ TimersCounted s t

/-- O41. ADD I, Vx completes in every state, X = 15 included: I = (I + V[X]) mod 0xFFF of the old values, VF = 1 if the
sum exceeds 0xFFF, else 0; no other register and nothing else changes. VF = 0 otherwise, and the modulus on every
sum, are the spec's decision D10. Cites: 43_index_memory.md section 1, 92_eei_decisions.md D10. -/
def Obligations.AddIndexResult : Prop :=
  ∀ (x : Reg) (s : State), ∃ t : State, exec (.addIVx x) s = .next t ∧
    t.I.toNat = (s.I.toNat + (s.reg x).toNat) % 0xFFF ∧
    t.reg 15 = (if s.I.toNat + (s.reg x).toNat > 0xFFF then 0x01#8 else 0x00#8) ∧
    SameRegsBut [15] s t ∧ SameStack s t ∧ SameMemory s t ∧ SameScreen s t ∧ CommonFrame s t ∧ Advances (s.pc + 2#16) t ∧ TimersCounted s t

/-- O42. In a canonical memory, when the block lies inside memory, LD [I], Vx completes: the byte at I + r is V[r] for
every r up to X, every other address reads as before, the memory is canonical again, and no register (I included) or
anything else changes. I unchanged is the spec's decision D11. Cites: 43_index_memory.md section 2,
92_eei_decisions.md D11. -/
def Obligations.StoreRegistersResult : Prop :=
  ∀ (x : Reg) (s : State), s.M.wf → s.I.toNat + x.val ≤ 0xFFF →
    ∃ t : State, exec (.stMem x) s = .next t ∧
      (∀ r : Reg, r.val ≤ x.val → t.M.get (effAddr s r.val) = s.reg r) ∧
      (∀ a : Nat, (a < effAddr s 0 ∨ effAddr s x.val < a) → t.M.get a = s.M.get a) ∧ t.M.wf ∧
      SameRegsBut [] s t ∧ t.I = s.I ∧ SameStack s t ∧ SameScreen s t ∧ CommonFrame s t ∧ Advances (s.pc + 2#16) t ∧ TimersCounted s t

/-- O43. When the block lies inside memory, LD Vx, [I] completes: V[r] is the byte at I + r for every r up to X, every
register above X keeps its value, and I, memory and everything else are unchanged. I unchanged is the spec's
decision D11. Cites: 43_index_memory.md section 2, 92_eei_decisions.md D11. -/
def Obligations.LoadRegistersResult : Prop :=
  ∀ (x : Reg) (s : State), s.I.toNat + x.val ≤ 0xFFF →
    ∃ t : State, exec (.ldMem x) s = .next t ∧
      (∀ r : Reg, r.val ≤ x.val → t.reg r = s.M.get (effAddr s r.val)) ∧
      (∀ r : Reg, x.val < r.val → t.reg r = s.reg r) ∧
      t.I = s.I ∧ SameStack s t ∧ SameMemory s t ∧ SameScreen s t ∧ CommonFrame s t ∧ Advances (s.pc + 2#16) t ∧ TimersCounted s t

/-- O44. From a canonical memory, after LD [I], Vx, in any state with the memory and I it left, LD Vx, [I] gives V[0] ..
V[X] the values stored: a stored byte is returned by any later load of that address. Cites: 43_index_memory.md
section 2, 20_memory.md section 7. -/
def Obligations.StoreThenLoadRestoresRegisters : Prop :=
  ∀ (x : Reg) (s : State), s.M.wf → s.I.toNat + x.val ≤ 0xFFF →
    ∃ t : State, exec (.stMem x) s = .next t ∧
      ∀ u : State, SameMemory t u → u.I = t.I →
        ∃ w : State, exec (.ldMem x) u = .next w ∧ ∀ r : Reg, r.val ≤ x.val → w.reg r = s.reg r

/-- O45. FX55 or FX65 with I + X above 0xFFF, and DXYN with N > 0 and I + N - 1 above 0xFFF, halt with AddressFault, the
block's last address in fault_info, and change nothing else: no byte, register, pixel or VF. The fault is the spec's
decisions D4, D5; that phase stays EXEC is DEDUCED, notes/assumptions/15.md. Cites: 60_exceptions.md section 1,
92_eei_decisions.md D4, D5. -/
def Obligations.BlockAboveMemoryHalts : Prop :=
  ∀ (x y : Reg) (n : Nibble) (s : State),
    (0xFFF < s.I.toNat + x.val →
      (∃ t : State, exec (.stMem x) s = .next t ∧
        HaltsWith .addressFault (BitVec.ofNat 16 (s.I.toNat + x.val)) s t) ∧
      (∃ t : State, exec (.ldMem x) s = .next t ∧
        HaltsWith .addressFault (BitVec.ofNat 16 (s.I.toNat + x.val)) s t)) ∧
    (0 < n.toNat → 0xFFF < s.I.toNat + n.toNat - 1 →
      ∃ t : State, exec (.drw x y n) s = .next t ∧
        HaltsWith .addressFault (BitVec.ofNat 16 (s.I.toNat + n.toNat - 1)) s t)

/-- O46. CLS completes in every state: every pixel is 0; no register, VF in particular, and no memory byte changes.
Cites: R201. -/
def Obligations.ClearScreenResult : Prop :=
  ∀ s : State, ∃ t : State, exec .cls s = .next t ∧
    (∀ (px : Fin 64) (py : Fin 32), t.FB.get px py = false) ∧
    SameRegsBut [] s t ∧ t.I = s.I ∧ SameStack s t ∧ SameMemory s t ∧ CommonFrame s t ∧ Advances (s.pc + 2#16) t ∧ TimersCounted s t

/-- O47. When N = 0 or the sprite lies inside memory, DRW completes, and its loop over rows and bits comes to this: a
pixel that a set bit of the sprite covers, both coordinates wrapping, is toggled; every other pixel is as before; VF
= 1 if a covered pixel was on, else 0. No other register, I, memory or anything else changes. The operands are the
spec's decision D13. Cites: 44_display.md section 3, 92_eei_decisions.md D13. -/
def Obligations.DrawTogglesExactlyTheSpritePixels : Prop :=
  ∀ (x y : Reg) (n : Nibble) (s : State), (n.toNat = 0 ∨ s.I.toNat + n.toNat - 1 ≤ 0xFFF) →
    ∃ t : State, exec (.drw x y n) s = .next t ∧
      (∀ (px : Fin 64) (py : Fin 32),
        (SpriteCovers s x y n px py → t.FB.get px py = !s.FB.get px py) ∧
        (¬ SpriteCovers s x y n px py → t.FB.get px py = s.FB.get px py)) ∧
      ((∃ (px : Fin 64) (py : Fin 32), SpriteCovers s x y n px py ∧ s.FB.get px py = true) → t.reg 15 = 0x01#8) ∧
      ((∀ (px : Fin 64) (py : Fin 32), SpriteCovers s x y n px py → s.FB.get px py = false) → t.reg 15 = 0x00#8) ∧
      SameRegsBut [15] s t ∧ t.I = s.I ∧ SameStack s t ∧ SameMemory s t ∧ CommonFrame s t ∧ Advances (s.pc + 2#16) t ∧ TimersCounted s t

/-- O48. For X and Y other than 15 and a sprite that is empty or lies inside memory, two DRW in a row leave every pixel
as it was, and VF = 1 after the second exactly when a covered pixel was off before the first. The rule's remark says
VF = 1 for any sprite with a set bit; by its pseudocode that holds only where some covered pixel was off, a blank
screen being one case (notes/assumptions/11.md). Cites: 44_display.md section 3. -/
def Obligations.DrawingTwiceRestoresTheScreen : Prop :=
  ∀ (x y : Reg) (n : Nibble) (s : State), x ≠ 15 → y ≠ 15 → (n.toNat = 0 ∨ s.I.toNat + n.toNat - 1 ≤ 0xFFF) →
    ∃ t u : State, exec (.drw x y n) s = .next t ∧ exec (.drw x y n) t = .next u ∧ SameScreen s u ∧
      (u.reg 15 = 0x01#8 ↔ ∃ (px : Fin 64) (py : Fin 32), SpriteCovers s x y n px py ∧ s.FB.get px py = false)

/-- O49. With V[X] a key number 0..15, SKP skips when K[V[X]] = 1 and SKNP when it is 0, pc advancing by 4, else by 2;
no register changes. With V[X] above 15 both halt with InvalidKeyIndex, the value in fault_info, nothing else
changed. That fault is the spec's decision D14, that it is precise D5; that phase stays EXEC after it is DEDUCED,
notes/assumptions/15.md. Cites: 45_keys_timers.md section 1, 60_exceptions.md section 1, 92_eei_decisions.md D5,
D14. -/
def Obligations.KeySkipResults : Prop :=
  ∀ (x : Reg) (s : State),
    (∀ k : Key, (s.reg x).toNat = k.val →
      (∃ t : State, exec (.skp x) s = .next t ∧
        Advances (if s.K[k] = true then s.pc + 4#16 else s.pc + 2#16) t ∧
        RegisterFrame [] s t ∧ TimersCounted s t) ∧
      (∃ t : State, exec (.sknp x) s = .next t ∧
        Advances (if s.K[k] = false then s.pc + 4#16 else s.pc + 2#16) t ∧
        RegisterFrame [] s t ∧ TimersCounted s t)) ∧
    (15 < (s.reg x).toNat →
      (∃ t : State, exec (.skp x) s = .next t ∧
        HaltsWith .invalidKeyIndex (BitVec.ofNat 16 (s.reg x).toNat) s t) ∧
      (∃ t : State, exec (.sknp x) s = .next t ∧
        HaltsWith .invalidKeyIndex (BitVec.ofNat 16 (s.reg x).toNat) s t))

/-- O50. LD Vx, DT completes in every state: V[X] = the old DT, and the step ends with DT one lower if it was above 0;
no other register changes. Cites: R222. -/
def Obligations.ReadDelayTimerResult : Prop :=
  ∀ (x : Reg) (s : State), ∃ t : State, exec (.ldVxDt x) s = .next t ∧
    t.reg x = s.DT ∧ RegisterFrame [x] s t ∧ Advances (s.pc + 2#16) t ∧ TimersCounted s t

/-- O51. LD DT, Vx and LD ST, Vx complete in every state: the timer ends one below V[X], or at 0 when V[X] = 0; the
other timer counts once; no register changes. The count of the writing step is the spec's decision D17. Cites:
45_keys_timers.md section 2, 92_eei_decisions.md D17. -/
def Obligations.SetTimerResults : Prop :=
  ∀ (x : Reg) (s : State),
    (∃ t : State, exec (.ldDtVx x) s = .next t ∧ t.DT.toNat = (s.reg x).toNat - 1 ∧ t.ST.toNat = s.ST.toNat - 1 ∧
      RegisterFrame [] s t ∧ Advances (s.pc + 2#16) t) ∧
    (∃ t : State, exec (.ldStVx x) s = .next t ∧ t.ST.toNat = (s.reg x).toNat - 1 ∧ t.DT.toNat = s.DT.toNat - 1 ∧
      RegisterFrame [] s t ∧ Advances (s.pc + 2#16) t)

/-- O52. The entry of FX0A completes in every state: EQ empty, wait = 1, and no register, pc, timer or key changes.
Then, with the opcode of LD Vx, K latched, on the core's turn with a down event queued, the step stores the key of
the oldest one in V[X], empties EQ, clears wait, advances pc by 2 and counts the timers once and makes DRAIN the
next phase; the turn is off the schedule, and K and everything else are unchanged. The destination is the spec's
decision D12; DRAIN as the phase after the entry is DEDUCED, notes/assumptions/9.md. Cites: 45_keys_timers.md
section 3, 92_eei_decisions.md D12, D35. -/
def Obligations.KeyWaitEntryAndCompletion : Prop :=
  ∀ (x : Reg) (s : State),
    exec (.ldVxK x) s = .next { s with EQ := [], wait := true, phase := .drain } ∧
    ∀ (u : State) (ups later : List KeyEvent) (k : Key), CoreMoves u → u.run = true → u.fault = .none →
      u.wait = true → u.IR = encode (.ldVxK x) → u.EQ = ups ++ ⟨k, true⟩ :: later → (∀ e ∈ ups, e.down = false) →
      ∃ t : State, step u = .next t ∧ (t.reg x).toNat = k.val ∧ SameRegsBut [x] u t ∧ t.EQ = [] ∧ t.wait = false ∧
        Advances (u.pc + 2#16) t ∧ TimersCounted u t ∧ t.I = u.I ∧ SameStack u t ∧ SameMemory u t ∧
        SameScreen u t ∧ (∀ j : Key, t.K[j] = u.K[j]) ∧ t.run = u.run ∧ t.fault = u.fault ∧
        t.faultInfo = u.faultInfo ∧ t.started = u.started ∧ t.IR = u.IR ∧ t.schedule = u.schedule.tail ∧
        t.reads = u.reads ∧ t.eqDepth = u.eqDepth ∧ t.freeCount = u.freeCount

/-- O53. From any state with CoreExec enabled and LD Vx, K at pc, for every sequence of host events that the queue can
hold and whose first down event is for key k: the entry, the events and the core's next turn end in a state that
equals the one before except V[X] = k, EQ empty, pc + 2, the timers counted once, phase (EXEC before, DRAIN after),
IR (the opcode) and the schedule, whose turns are spent; K is unchanged, so the events never reach it. The spec
marks the relation derived; the schedule and the queue's capacity are the model's own fields
(notes/assumptions/5.md, 3.md). A full queue is the statement EnqueueAppendsAtTheYoungEnd. Cites: 45_keys_timers.md
section 3. -/
def Obligations.KeyWaitAsOneRelation : Prop :=
  ∀ (s : State) (x : Reg) (ups later : List KeyEvent) (k : Key) (rest : List Turn),
    s.run = true → s.fault = .none → s.wait = false → s.phase = .exec → s.pc.toNat ≤ 0x0FFE →
    joinBytes (s.M.get s.pc.toNat) (s.M.get (s.pc.toNat + 1)) = encode (.ldVxK x) →
    (∀ e ∈ ups, e.down = false) → QueueHolds s (ups ++ ⟨k, true⟩ :: later).length →
    s.schedule = .core :: ((ups ++ ⟨k, true⟩ :: later).map fun e => .host (.enqueue e.key e.down)) ++
      .core :: rest →
    ∃ t : State, runFor (1 + (ups ++ ⟨k, true⟩ :: later).length + 1) s = .next t ∧
      (t.reg x).toNat = k.val ∧ SameRegsBut [x] s t ∧ t.EQ = [] ∧ t.wait = false ∧ Advances (s.pc + 2#16) t ∧
      TimersCounted s t ∧ t.I = s.I ∧ SameStack s t ∧ SameMemory s t ∧ SameScreen s t ∧
      (∀ j : Key, t.K[j] = s.K[j]) ∧ t.run = true ∧ t.fault = .none ∧ t.faultInfo = s.faultInfo ∧
      t.started = s.started ∧ t.IR = encode (.ldVxK x) ∧ t.schedule = rest ∧ t.reads = s.reads ∧
      t.eqDepth = s.eqDepth ∧ t.freeCount = s.freeCount

/-- O54. A waiting core with no down event queued is still waiting, with pc, timers and registers as they were, after
any sequence of up events from the host, as many as the queue can hold, and of core turns: nothing changes but that
the turns are spent and the queue, which holds what it held followed by the events of the turns, in order. The
queue's capacity is a field of the model's own (notes/assumptions/3.md). That an unenabled core turn leaves the
state is the MODEL'S CHOICE, notes/assumptions/8.md. Cites: 45_keys_timers.md section 3,
93_implementation_defined.md U17. -/
def Obligations.KeyWaitIgnoresUpEvents : Prop :=
  ∀ (turns : List Turn) (s : State) (rest : List Turn), s.run = true → s.fault = .none → s.wait = true →
    (∀ e ∈ s.EQ, e.down = false) → (∀ u ∈ turns, u = .core ∨ ∃ k : Key, u = .host (.enqueue k false)) →
    s.schedule = turns ++ rest → QueueHolds s (s.EQ ++ turns.filterMap Turn.event?).length →
    runFor turns.length s = .next { s with schedule := rest, EQ := s.EQ ++ turns.filterMap Turn.event? } ∧
      ∀ e ∈ s.EQ ++ turns.filterMap Turn.event?, e.down = false

/-- O55. SYS, LD F, Vx and LD B, Vx complete in every state, whatever their fields, I included: pc advances by 2, the
timers count, and every register, I, stack, memory byte, pixel and key is unchanged. That the three are no-ops is
the spec's decision D15. Cites: 40_step_cycle.md section 7, 92_eei_decisions.md D15. -/
def Obligations.NoOpsChangeOnlyPcAndTimers : Prop :=
  ∀ (nnn : Addr) (x : Reg) (s : State),
    (∃ t : State, exec (.sys nnn) s = .next t ∧ RegisterFrame [] s t ∧ Advances (s.pc + 2#16) t ∧ TimersCounted s t) ∧
    (∃ t : State, exec (.ldFVx x) s = .next t ∧ RegisterFrame [] s t ∧ Advances (s.pc + 2#16) t ∧ TimersCounted s t) ∧
    (∃ t : State, exec (.ldBVx x) s = .next t ∧ RegisterFrame [] s t ∧ Advances (s.pc + 2#16) t ∧ TimersCounted s t)

/-- O56. Before the first start, in a canonical memory, a ROM of at most 3584 bytes is copied in order to 0x200 upward,
every other address and every other field staying; a longer one is refused as RomTooLarge; after a start the spec
has no such move. The refusal is the spec's decision D32; that the model answers the fault romLoadNotEnabled where
the spec has no move is the MODEL'S CHOICE, notes/assumptions/12.md, and so is that a load may be repeated until the
start (R33 and D26: once per reset), notes/assumptions/18.md. Cites: 70_reset_and_hazards.md section 2, 10_state.md
section 6, 92_eei_decisions.md D26, D32. -/
def Obligations.RomLoadWritesExactlyItsBytes : Prop :=
  ∀ (s : State) (bytes : List Byte) (rest : List Turn), s.M.wf → s.schedule = .host (.loadROM bytes) :: rest →
    (s.started = false → bytes.length ≤ 3584 → ∃ t : State, step s = .next t ∧
      (∀ (j : Nat) (h : j < bytes.length), t.M.get (0x200 + j) = bytes[j]) ∧
      (∀ a : Nat, (a < 0x200 ∨ 0x200 + bytes.length ≤ a) → t.M.get a = s.M.get a) ∧ t.M.wf ∧
      t = { s with schedule := rest, M := t.M }) ∧
    (s.started = false → 3584 < bytes.length → step s = .refused .romTooLarge) ∧
    (s.started = true → step s = .fault .romLoadNotEnabled)

/-- O57. When HostStart is next: with started = 0 and no fault, run and started become 1 and nothing else changes;
otherwise the spec has no such move, and that the model then answers the fault startNotEnabled is the MODEL'S
CHOICE, notes/assumptions/12.md, and so is that no earlier ROM load is required, notes/assumptions/18.md. started is
the spec's decision D26. Cites: 60_exceptions.md section 6, 92_eei_decisions.md D26. -/
def Obligations.HostStartIsOfferedOncePerReset : Prop :=
  ∀ (s : State) (rest : List Turn), s.schedule = .host .start :: rest →
    (s.started = false → s.fault = .none →
      step s = .next { s with schedule := rest, run := true, started := true }) ∧
    ((s.started = true ∨ s.fault ≠ .none) → step s = .fault .startNotEnabled)

/-- O58. When HostStop is next it has a next state with run = 0 and wait = 0 if the core ran. Outside a wait only run
changes. During a wait either nothing else changes, or V[X] becomes some key 0..15, pc advances by 2, the timers
count once and DRAIN is the next phase; in both the turn is off the schedule, and K, EQ, I, stack, memory, screen,
IR, the fault record, started and the host's record stay. Which of the two is a free value (notes/assumptions/2.md),
whose use the model counts; the pair is the spec's decision D25. That EQ stays, and the phase, are DEDUCED,
notes/assumptions/13.md. Cites: 60_exceptions.md section 6, 93_implementation_defined.md U3, 92_eei_decisions.md
D25. -/
def Obligations.HostStopEndsARunOrAWait : Prop :=
  ∀ (s : State) (rest : List Turn), s.schedule = .host .stop :: rest →
    ((s.run = false ∨ s.wait = false) → step s = .next { s with schedule := rest, run := false }) ∧
    (s.run = true → s.wait = true → ∃ t : State, step s = .next t ∧ t.run = false ∧ t.wait = false ∧
      ((SameRegsBut [] s t ∧ t.pc = s.pc ∧ t.DT = s.DT ∧ t.ST = s.ST ∧ t.phase = s.phase) ∨
       (∃ k : Key, (t.reg (fieldX s.IR)).toNat = k.val ∧ SameRegsBut [fieldX s.IR] s t ∧
         Advances (s.pc + 2#16) t ∧ TimersCounted s t)) ∧
      t.I = s.I ∧ SameStack s t ∧ SameMemory s t ∧ SameScreen s t ∧ SameKeypad s t ∧ t.fault = s.fault ∧
      t.faultInfo = s.faultInfo ∧ t.started = s.started ∧ t.IR = s.IR ∧ t.schedule = rest ∧ t.reads = s.reads ∧
      t.eqDepth = s.eqDepth)

/-- O59. When HostEnqueue(k, d) is next, in every state, waiting, stopped or faulted included: if the queue is unbounded
or holds fewer events than its capacity, the step appends (k, d) at the young end of EQ and changes nothing else; if
it is bounded and full, the move is refused as queueFull. The capacity is open (decision D19) and a full queue is
U6; that it stands in a field of the state is the MODEL'S CHOICE, notes/assumptions/3.md. Cites: 60_exceptions.md
section 6, 92_eei_decisions.md D19, 93_implementation_defined.md U6. -/
def Obligations.EnqueueAppendsAtTheYoungEnd : Prop :=
  ∀ (s : State) (k : Key) (d : Bool) (rest : List Turn), s.schedule = .host (.enqueue k d) :: rest →
    ((s.eqDepth = none ∨ ∃ n : Nat, s.eqDepth = some n ∧ s.EQ.length < n) →
      step s = .next { s with schedule := rest, EQ := s.EQ ++ [⟨k, d⟩] }) ∧
    (∀ n : Nat, s.eqDepth = some n → n ≤ s.EQ.length → step s = .refused .queueFull)

/-- O60. HostReadFB between transitions returns FB exactly; HostReadStatus returns run, fault, fault_info, wait and ST;
both change only the host's record. A HostReadFB that overlaps a core transition returns, for each pixel, its value
before or after it, and the core's transition is the one it would have made; that a read overlaps one transition and
no more is the MODEL'S CHOICE. Which pixel is which is a free value (notes/assumptions/4.md); the relaxation is the
spec's decision D29. Cites: 60_exceptions.md section 6, 92_eei_decisions.md D29, D31. -/
def Obligations.HostReadsChangeNothingAndReturnTheState : Prop :=
  ∀ (s : State) (rest : List Turn),
    (s.schedule = .host .readFB :: rest →
      step s = .next { s with schedule := rest, reads := s.reads ++ [.framebuffer s.FB] }) ∧
    (s.schedule = .host .readStatus :: rest →
      step s = .next { s with
        schedule := rest
        reads := s.reads ++ [.status s.run s.fault s.faultInfo s.wait s.ST] }) ∧
    (s.schedule = .coreWithRead :: rest →
      ∀ u : State, step { s with schedule := .core :: rest } = .next u →
        ∃ (t : State) (grid : Framebuffer), step s = .next t ∧
          t = { u with reads := u.reads ++ [.framebuffer grid], freeCount := t.freeCount } ∧
          ∀ (px : Fin 64) (py : Fin 32), grid.get px py = s.FB.get px py ∨ grid.get px py = u.FB.get px py)
end

