-- ==== Sys2Proof/Laws/Decode.lean ====
section
/-!
SUPPORT. The encoder's formats and the decoder's fields undo each other, and what a mask leaves of an encoded word.
-/
namespace Sys2Proof

/-! ### Taking a concatenation apart -/

theorem extract_low {v w : Nat} (a : BitVec v) (b : BitVec w) : BitVec.extractLsb' 0 w (a ++ b) = b := by
  rw [BitVec.extractLsb'_append_eq_of_add_le (by omega), BitVec.extractLsb'_eq_self]

theorem extract_high {v w : Nat} (a : BitVec v) (b : BitVec w) : BitVec.extractLsb' w v (a ++ b) = a := by
  rw [BitVec.extractLsb'_append_eq_of_le (by omega), Nat.sub_self, BitVec.extractLsb'_eq_self]

theorem and_ones (w : Nat) (a : BitVec w) : a &&& BitVec.allOnes w = a := BitVec.and_allOnes

@[simp] theorem regOf_nibOf (x : Reg) : regOf (nibOf x) = x := rfl

@[simp] theorem nibOf_regOf (b : Nibble) : nibOf (regOf b) = b := rfl

/-! ### The fields of an encoded word -/

@[simp] theorem fieldNNN_encNNN (g : Nibble) (nnn : Addr) : fieldNNN (encNNN g nnn) = nnn := extract_low g nnn

@[simp] theorem fieldNN_encXNN (g : Nibble) (x : Reg) (nn : Byte) : fieldNN (encXNN g x nn) = nn :=
  extract_low (g ++ nibOf x) nn

@[simp] theorem fieldX_encXNN (g : Nibble) (x : Reg) (nn : Byte) : fieldX (encXNN g x nn) = x := by
  have h : BitVec.extractLsb' 8 4 ((g ++ nibOf x) ++ nn) = nibOf x := by
    rw [BitVec.extractLsb'_append_eq_of_le (by omega)]
    exact extract_low g (nibOf x)
  exact (congrArg regOf h).trans (regOf_nibOf x)

@[simp] theorem fieldX_encXYN (g : Nibble) (x y : Reg) (n : Nibble) : fieldX (encXYN g x y n) = x :=
  fieldX_encXNN g x (nibOf y ++ n)

@[simp] theorem fieldY_encXYN (g : Nibble) (x y : Reg) (n : Nibble) : fieldY (encXYN g x y n) = y := by
  have h : BitVec.extractLsb' 4 4 ((g ++ nibOf x) ++ (nibOf y ++ n)) = nibOf y := by
    rw [BitVec.extractLsb'_append_eq_of_add_le (by omega)]
    exact extract_high (nibOf y) n
  exact (congrArg regOf h).trans (regOf_nibOf y)

@[simp] theorem fieldN_encXYN (g : Nibble) (x y : Reg) (n : Nibble) : fieldN (encXYN g x y n) = n := by
  have h : BitVec.extractLsb' 0 4 ((g ++ nibOf x) ++ (nibOf y ++ n)) = n := by
    rw [BitVec.extractLsb'_append_eq_of_add_le (by omega)]
    exact extract_low (nibOf y) n
  exact h

/-! ### What a mask leaves of an encoded word -/

/-- The mask 0xF000 leaves the group nibble. -/
theorem encNNN_and_group (g : Nibble) (nnn : Addr) : encNNN g nnn &&& 0xF000#16 = (g ++ 0#12 : BitVec (4 + 12)) := by
  have h : (g ++ nnn) &&& (0xF#4 ++ 0#12) = g ++ 0#12 := by
    rw [BitVec.and_append, BitVec.and_zero, show 0xF#4 = BitVec.allOnes 4 from rfl, and_ones]
  exact h

theorem encXNN_and_group (g : Nibble) (x : Reg) (nn : Byte) :
    encXNN g x nn &&& 0xF000#16 = ((g ++ 0#4) ++ 0#8 : BitVec (4 + 4 + 8)) := by
  have h : ((g ++ nibOf x) ++ nn) &&& ((0xF#4 ++ 0#4) ++ 0#8) = (g ++ 0#4) ++ 0#8 := by
    rw [BitVec.and_append, BitVec.and_append, BitVec.and_zero, BitVec.and_zero,
      show 0xF#4 = BitVec.allOnes 4 from rfl, and_ones]
  exact h

/-- The mask 0xF0FF leaves the group nibble and the low byte. -/
theorem encXNN_and_minor (g : Nibble) (x : Reg) (nn : Byte) :
    encXNN g x nn &&& 0xF0FF#16 = ((g ++ 0#4) ++ nn : BitVec (4 + 4 + 8)) := by
  have h : ((g ++ nibOf x) ++ nn) &&& ((0xF#4 ++ 0#4) ++ 0xFF#8) = (g ++ 0#4) ++ nn := by
    rw [BitVec.and_append, BitVec.and_append, BitVec.and_zero,
      show 0xF#4 = BitVec.allOnes 4 from rfl, show 0xFF#8 = BitVec.allOnes 8 from rfl, and_ones, and_ones]
  exact h

theorem encXYN_and_group (g : Nibble) (x y : Reg) (n : Nibble) :
    encXYN g x y n &&& 0xF000#16 = ((g ++ 0#4) ++ 0#8 : BitVec (4 + 4 + 8)) :=
  encXNN_and_group g x (nibOf y ++ n)

/-- The mask 0xF00F leaves the group nibble and the low nibble. -/
theorem encXYN_and_minor (g : Nibble) (x y : Reg) (n : Nibble) :
    encXYN g x y n &&& 0xF00F#16 = ((g ++ 0#4) ++ (0#4 ++ n) : BitVec (4 + 4 + (4 + 4))) := by
  have h : ((g ++ nibOf x) ++ (nibOf y ++ n)) &&& ((0xF#4 ++ 0#4) ++ (0#4 ++ 0xF#4)) = (g ++ 0#4) ++ (0#4 ++ n) := by
    rw [BitVec.and_append, BitVec.and_append, BitVec.and_append, BitVec.and_zero, BitVec.and_zero,
      show 0xF#4 = BitVec.allOnes 4 from rfl, and_ones, and_ones]
  exact h

/-! ### Bytes -/

@[simp] theorem joinBytes_split (op : Word) : joinBytes (highByte op) (lowByte op) = op := by
  have h : BitVec.extractLsb' 8 8 op ++ BitVec.extractLsb' 0 8 op = op := by
    apply BitVec.eq_of_getLsbD_eq
    intro i hi
    simp only [BitVec.getLsbD_append, BitVec.getLsbD_extractLsb']
    by_cases hlt : i < 8
    · simp only [hlt, decide_true, Bool.true_and, if_true, Nat.zero_add]
    · have h1 : i - 8 < 8 := by omega
      have h2 : 8 + (i - 8) = i := by omega
      simp only [hlt, if_false, h1, decide_true, Bool.true_and, h2]
  exact h

@[simp] theorem highByte_join (hi lo : Byte) : highByte (joinBytes hi lo) = hi := extract_high hi lo

@[simp] theorem lowByte_join (hi lo : Byte) : lowByte (joinBytes hi lo) = lo := extract_low hi lo

end Sys2Proof
end

