-- ==== Sys2Proof/Laws/Memory.lean ====
section
/-!
SUPPORT. The laws of main memory: a byte read after a write, the canonical form kept by every operation, equal contents
are equal data, and the block accesses as a whole.
-/
namespace Sys2Proof.Machine

open Sys2Proof (Config.unlistedByte Config.lastAddr Config.memSize)

namespace Memory

@[simp] theorem get_nil (a : Nat) : Memory.get [] a = Config.unlistedByte := rfl

theorem get_cons (k : Nat) (b : Byte) (m : Memory) (a : Nat) :
    Memory.get ((k, b) :: m) a = if a = k then b else Memory.get m a := rfl

theorem wf_nil : Memory.wf [] := by simp [Memory.wf]

theorem wf_tail {c : Host.Cell} {m : Memory} (h : Memory.wf (c :: m)) : Memory.wf m :=
  ⟨(List.pairwise_cons.mp h.1).2, fun d hd => h.2 d (List.mem_cons_of_mem _ hd)⟩

/-- Every listed address of a tail lies above the head's. -/
theorem wf_head_lt {k : Nat} {b : Byte} {m : Memory} (h : Memory.wf ((k, b) :: m)) : ∀ c ∈ m, k < c.1 :=
  (List.pairwise_cons.mp h.1).1

theorem wf_cons {k : Nat} {b : Byte} {m : Memory} (hm : Memory.wf m) (hk : k < Config.memSize)
    (hb : b ≠ Config.unlistedByte) (hlt : ∀ c ∈ m, k < c.1) : Memory.wf ((k, b) :: m) := by
  refine ⟨List.pairwise_cons.mpr ⟨hlt, hm.1⟩, fun c hc => ?_⟩
  rcases List.mem_cons.mp hc with rfl | hc
  · exact ⟨hk, hb⟩
  · exact hm.2 c hc

/-- An address below every listed one is unlisted. -/
theorem get_of_all_gt {m : Memory} {a : Nat} (h : ∀ c ∈ m, a < c.1) : m.get a = Config.unlistedByte := by
  induction m with
  | nil => rfl
  | cons c m ih =>
    obtain ⟨k, b⟩ := c
    have hk : a < k := h (k, b) List.mem_cons_self
    rw [get_cons, if_neg (by omega)]
    exact ih fun d hd => h d (List.mem_cons_of_mem _ hd)

/-- A write leaves every other address alone. -/
theorem get_set_of_ne (m : Memory) {a a' : Nat} (b : Byte) (h : a' ≠ a) : (m.set a b).get a' = m.get a' := by
  induction m with
  | nil =>
    rw [Memory.set]
    split
    · rfl
    · rw [get_cons, if_neg h]
  | cons c m ih =>
    obtain ⟨k, c⟩ := c
    rw [Memory.set]
    split
    · split
      · rfl
      · rw [get_cons, if_neg h]
    · split
      · rename_i hak
        subst hak
        split
        · rw [get_cons, if_neg h]
        · rw [get_cons, if_neg h, get_cons, if_neg h]
      · rw [get_cons, get_cons, ih]

/-- A read after a write to the same address gives the byte written. -/
theorem get_set_self {m : Memory} (hm : m.wf) (a : Nat) (b : Byte) : (m.set a b).get a = b := by
  induction m with
  | nil =>
    rw [Memory.set]
    split
    · rename_i hb; rw [get_nil, hb]
    · rw [get_cons, if_pos rfl]
  | cons c m ih =>
    obtain ⟨k, c⟩ := c
    have hgt := wf_head_lt hm
    rw [Memory.set]
    split
    · rename_i hak
      split
      · rename_i hb
        rw [hb]
        refine get_of_all_gt fun d hd => ?_
        rcases List.mem_cons.mp hd with rfl | hd
        · exact hak
        · exact Nat.lt_trans hak (hgt d hd)
      · rw [get_cons, if_pos rfl]
    · split
      · rename_i hak
        split
        · rename_i hb
          rw [hb]
          exact get_of_all_gt fun d hd => hak ▸ hgt d hd
        · rw [get_cons, if_pos rfl]
      · rename_i hne
        rw [get_cons, if_neg hne]
        exact ih (wf_tail hm)

/-- One byte read after a write. -/
theorem get_set {m : Memory} (hm : m.wf) (a a' : Nat) (b : Byte) :
    (m.set a b).get a' = if a' = a then b else m.get a' := by
  split
  · rename_i h; rw [h, get_set_self hm]
  · rename_i h; exact get_set_of_ne m b h

/-- What a write can list: the written address or an address listed before. -/
theorem mem_set {m : Memory} {a : Nat} {b : Byte} {c : Host.Cell} (h : c ∈ m.set a b) : c.1 = a ∨ c ∈ m := by
  induction m with
  | nil =>
    rw [Memory.set] at h
    split at h
    · exact absurd h List.not_mem_nil
    · exact .inl (by rw [List.mem_singleton.mp h])
  | cons d m ih =>
    obtain ⟨k, d⟩ := d
    rw [Memory.set] at h
    split at h
    · split at h
      · exact .inr h
      · rcases List.mem_cons.mp h with rfl | h
        · exact .inl rfl
        · exact .inr h
    · split at h
      · split at h
        · exact .inr (List.mem_cons_of_mem _ h)
        · rcases List.mem_cons.mp h with rfl | h
          · exact .inl rfl
          · exact .inr (List.mem_cons_of_mem _ h)
      · rcases List.mem_cons.mp h with rfl | h
        · exact .inr List.mem_cons_self
        · rcases ih h with h | h
          · exact .inl h
          · exact .inr (List.mem_cons_of_mem _ h)

/-- A write inside memory keeps the canonical form. -/
theorem wf_set {m : Memory} (hm : m.wf) {a : Nat} (ha : a < Config.memSize) (b : Byte) : (m.set a b).wf := by
  induction m with
  | nil =>
    rw [Memory.set]
    split
    · exact wf_nil
    · rename_i hb
      exact wf_cons wf_nil ha hb fun c hc => absurd hc List.not_mem_nil
  | cons c m ih =>
    obtain ⟨k, c⟩ := c
    have hgt := wf_head_lt hm
    have hc := hm.2 (k, c) List.mem_cons_self
    rw [Memory.set]
    split
    · rename_i hak
      split
      · exact hm
      · rename_i hb
        refine wf_cons hm ha hb fun d hd => ?_
        rcases List.mem_cons.mp hd with rfl | hd
        · exact hak
        · exact Nat.lt_trans hak (hgt d hd)
    · split
      · rename_i hak
        split
        · exact wf_tail hm
        · rename_i hb
          exact wf_cons (wf_tail hm) ha hb fun d hd => hak ▸ hgt d hd
      · rename_i hlt hne
        refine wf_cons (ih (wf_tail hm)) hc.1 hc.2 fun d hd => ?_
        rcases mem_set hd with h | h
        · rw [h]; omega
        · exact hgt d h

/-- The head of a canonical list is the least address that does not read as unlisted. -/
theorem get_head {k : Nat} {b : Byte} {m : Memory} : Memory.get ((k, b) :: m) k = b := by
  rw [get_cons, if_pos rfl]

/-- Equal memories are equal data: two canonical memories that read alike everywhere are the same list. -/
theorem eq_of_get_eq {m m' : Memory} (hm : m.wf) (hm' : m'.wf) (h : ∀ a, m.get a = m'.get a) : m = m' := by
  induction m generalizing m' with
  | nil =>
    cases m' with
    | nil => rfl
    | cons c m' =>
      obtain ⟨k, b⟩ := c
      have := h k
      rw [get_nil, get_head] at this
      exact absurd this.symm (hm'.2 (k, b) List.mem_cons_self).2
  | cons c m ih =>
    obtain ⟨k, b⟩ := c
    have hb := (hm.2 (k, b) List.mem_cons_self).2
    cases m' with
    | nil =>
      have := h k
      rw [get_nil, get_head] at this
      exact absurd this hb
    | cons d m' =>
      obtain ⟨k', b'⟩ := d
      have hb' := (hm'.2 (k', b') List.mem_cons_self).2
      have hgt := wf_head_lt hm
      have hgt' := wf_head_lt hm'
      have hkk : k = k' := by
        rcases Nat.lt_trichotomy k k' with hlt | heq | hlt
        · have := h k
          rw [get_head, get_of_all_gt fun d hd => by
            rcases List.mem_cons.mp hd with rfl | hd
            · exact hlt
            · exact Nat.lt_trans hlt (hgt' d hd)] at this
          exact absurd this hb
        · exact heq
        · have := h k'
          rw [get_head, get_of_all_gt fun d hd => by
            rcases List.mem_cons.mp hd with rfl | hd
            · exact hlt
            · exact Nat.lt_trans hlt (hgt d hd)] at this
          exact absurd this.symm hb'
      subst hkk
      have hbb : b = b' := by simpa only [get_head] using h k
      subst hbb
      refine congrArg _ (ih (wf_tail hm) (wf_tail hm') fun a => ?_)
      by_cases hak : a = k
      · subst hak
        rw [get_of_all_gt hgt, get_of_all_gt hgt']
      · have := h a
        rwa [get_cons, get_cons, if_neg hak, if_neg hak] at this

/-! ### Blocks -/

/-- A block copy inside memory keeps the canonical form. -/
theorem wf_copy {m : Memory} (hm : m.wf) {a : Nat} {bs : List Byte} (h : a + bs.length ≤ Config.memSize) :
    (m.copy a bs).wf := by
  induction bs generalizing m a with
  | nil => exact hm
  | cons b bs ih =>
    rw [List.length_cons] at h
    exact ih (wf_set hm (by omega) b) (by omega)

/-- A block copy leaves every address outside the block alone. -/
theorem get_copy_outside {m : Memory} {a i : Nat} {bs : List Byte} (h : i < a ∨ a + bs.length ≤ i) :
    (m.copy a bs).get i = m.get i := by
  induction bs generalizing m a with
  | nil => rfl
  | cons b bs ih =>
    rw [List.length_cons] at h
    rw [Memory.copy, ih (by omega), get_set_of_ne m b (by omega)]

/-- A block copy puts byte j of the block at `a + j`. -/
theorem get_copy_inside {m : Memory} (hm : m.wf) {a j : Nat} {bs : List Byte} (hj : j < bs.length)
    (h : a + bs.length ≤ Config.memSize) : (m.copy a bs).get (a + j) = bs[j] := by
  induction bs generalizing m a j with
  | nil => exact absurd hj (Nat.not_lt_zero j)
  | cons b bs ih =>
    rw [List.length_cons] at h hj
    rw [Memory.copy]
    cases j with
    | zero =>
      rw [get_copy_outside (by omega), Nat.add_zero, get_set_self hm]
      rfl
    | succ j =>
      have := ih (wf_set hm (a := a) (by omega) b) (a := a + 1) (j := j) (by omega) (by omega)
      rw [show a + (j + 1) = a + 1 + j by omega, this]
      rfl

end Memory

/-- A block store inside memory is the block copy. -/
theorem storeBlock_eq {m : Memory} {a : Nat} {bs : List Byte} (h : a + bs.length ≤ Config.memSize) :
    storeBlock m a bs = .ok (m.copy a bs) := by
  induction bs generalizing m a with
  | nil => rfl
  | cons b bs ih =>
    rw [List.length_cons] at h
    have ha : ¬ Config.lastAddr < a := by simp only [Config.lastAddr, Config.memSize] at *; omega
    rw [storeBlock, memWrite, if_neg ha]
    exact ih (by omega)

/-- A block load inside memory reads the bytes at a, a + 1, … -/
theorem loadBlock_eq {m : Memory} {a n : Nat} (h : a + n ≤ Config.memSize) :
    loadBlock m a n = .ok ((List.range n).map fun j => m.get (a + j)) := by
  induction n generalizing a with
  | zero => rfl
  | succ n ih =>
    have ha : ¬ Config.lastAddr < a := by simp only [Config.lastAddr, Config.memSize] at *; omega
    rw [loadBlock, memRead, if_neg ha]
    simp only []
    rw [ih (by omega)]
    simp only [List.range_succ_eq_map, List.map_cons, List.map_map, Nat.add_zero]
    congr 2
    apply List.map_congr_left
    intro j _
    simp only [Function.comp_apply]
    congr 1
    omega

/-- A byte read inside memory. -/
theorem memRead_eq {m : Memory} {a : Nat} (h : a < Config.memSize) : memRead m a = .ok (m.get a) := by
  rw [memRead, if_neg (by simp only [Config.lastAddr, Config.memSize] at *; omega)]

/-- A fetch inside memory joins the two bytes, the first one high (R64). -/
theorem memRead2_eq {m : Memory} {a : Nat} (h : a + 1 < Config.memSize) :
    memRead2 m a = .ok (joinBytes (m.get a) (m.get (a + 1))) := by
  rw [memRead2, if_neg (by simp only [Config.lastAddr, Config.memSize] at *; omega)]

end Sys2Proof.Machine
end

