-- ==== Sys2Proof/Laws/State.lean ====
section
/-!
SUPPORT. What each named update of the state does to each field: one lemma per field per update, all by rfl.
-/
namespace Sys2Proof.Machine

variable (s : State)

/-! ### State.setReg -/

@[simp] theorem State.setReg_V (x : Reg) (b : Byte) : (s.setReg x b).V = s.V.set x b := rfl
@[simp] theorem State.setReg_I (x : Reg) (b : Byte) : (s.setReg x b).I = s.I := rfl
@[simp] theorem State.setReg_pc (x : Reg) (b : Byte) : (s.setReg x b).pc = s.pc := rfl
@[simp] theorem State.setReg_sp (x : Reg) (b : Byte) : (s.setReg x b).sp = s.sp := rfl
@[simp] theorem State.setReg_stack (x : Reg) (b : Byte) : (s.setReg x b).stack = s.stack := rfl
@[simp] theorem State.setReg_DT (x : Reg) (b : Byte) : (s.setReg x b).DT = s.DT := rfl
@[simp] theorem State.setReg_ST (x : Reg) (b : Byte) : (s.setReg x b).ST = s.ST := rfl
@[simp] theorem State.setReg_K (x : Reg) (b : Byte) : (s.setReg x b).K = s.K := rfl
@[simp] theorem State.setReg_M (x : Reg) (b : Byte) : (s.setReg x b).M = s.M := rfl
@[simp] theorem State.setReg_FB (x : Reg) (b : Byte) : (s.setReg x b).FB = s.FB := rfl
@[simp] theorem State.setReg_EQ (x : Reg) (b : Byte) : (s.setReg x b).EQ = s.EQ := rfl
@[simp] theorem State.setReg_run (x : Reg) (b : Byte) : (s.setReg x b).run = s.run := rfl
@[simp] theorem State.setReg_started (x : Reg) (b : Byte) : (s.setReg x b).started = s.started := rfl
@[simp] theorem State.setReg_wait (x : Reg) (b : Byte) : (s.setReg x b).wait = s.wait := rfl
@[simp] theorem State.setReg_fault (x : Reg) (b : Byte) : (s.setReg x b).fault = s.fault := rfl
@[simp] theorem State.setReg_faultInfo (x : Reg) (b : Byte) : (s.setReg x b).faultInfo = s.faultInfo := rfl
@[simp] theorem State.setReg_IR (x : Reg) (b : Byte) : (s.setReg x b).IR = s.IR := rfl
@[simp] theorem State.setReg_phase (x : Reg) (b : Byte) : (s.setReg x b).phase = s.phase := rfl
@[simp] theorem State.setReg_schedule (x : Reg) (b : Byte) : (s.setReg x b).schedule = s.schedule := rfl
@[simp] theorem State.setReg_reads (x : Reg) (b : Byte) : (s.setReg x b).reads = s.reads := rfl
@[simp] theorem State.setReg_freeCount (x : Reg) (b : Byte) : (s.setReg x b).freeCount = s.freeCount := rfl
@[simp] theorem State.setReg_eqDepth (x : Reg) (b : Byte) : (s.setReg x b).eqDepth = s.eqDepth := rfl

/-! ### State.setRegs -/

@[simp] theorem State.setRegs_V (bs : List Byte) : (s.setRegs bs).V = writeRegs s.V 0 bs := rfl
@[simp] theorem State.setRegs_I (bs : List Byte) : (s.setRegs bs).I = s.I := rfl
@[simp] theorem State.setRegs_pc (bs : List Byte) : (s.setRegs bs).pc = s.pc := rfl
@[simp] theorem State.setRegs_sp (bs : List Byte) : (s.setRegs bs).sp = s.sp := rfl
@[simp] theorem State.setRegs_stack (bs : List Byte) : (s.setRegs bs).stack = s.stack := rfl
@[simp] theorem State.setRegs_DT (bs : List Byte) : (s.setRegs bs).DT = s.DT := rfl
@[simp] theorem State.setRegs_ST (bs : List Byte) : (s.setRegs bs).ST = s.ST := rfl
@[simp] theorem State.setRegs_K (bs : List Byte) : (s.setRegs bs).K = s.K := rfl
@[simp] theorem State.setRegs_M (bs : List Byte) : (s.setRegs bs).M = s.M := rfl
@[simp] theorem State.setRegs_FB (bs : List Byte) : (s.setRegs bs).FB = s.FB := rfl
@[simp] theorem State.setRegs_EQ (bs : List Byte) : (s.setRegs bs).EQ = s.EQ := rfl
@[simp] theorem State.setRegs_run (bs : List Byte) : (s.setRegs bs).run = s.run := rfl
@[simp] theorem State.setRegs_started (bs : List Byte) : (s.setRegs bs).started = s.started := rfl
@[simp] theorem State.setRegs_wait (bs : List Byte) : (s.setRegs bs).wait = s.wait := rfl
@[simp] theorem State.setRegs_fault (bs : List Byte) : (s.setRegs bs).fault = s.fault := rfl
@[simp] theorem State.setRegs_faultInfo (bs : List Byte) : (s.setRegs bs).faultInfo = s.faultInfo := rfl
@[simp] theorem State.setRegs_IR (bs : List Byte) : (s.setRegs bs).IR = s.IR := rfl
@[simp] theorem State.setRegs_phase (bs : List Byte) : (s.setRegs bs).phase = s.phase := rfl
@[simp] theorem State.setRegs_schedule (bs : List Byte) : (s.setRegs bs).schedule = s.schedule := rfl
@[simp] theorem State.setRegs_reads (bs : List Byte) : (s.setRegs bs).reads = s.reads := rfl
@[simp] theorem State.setRegs_freeCount (bs : List Byte) : (s.setRegs bs).freeCount = s.freeCount := rfl
@[simp] theorem State.setRegs_eqDepth (bs : List Byte) : (s.setRegs bs).eqDepth = s.eqDepth := rfl

/-! ### State.setI -/

@[simp] theorem State.setI_V (a : Addr) : (s.setI a).V = s.V := rfl
@[simp] theorem State.setI_I (a : Addr) : (s.setI a).I = a := rfl
@[simp] theorem State.setI_pc (a : Addr) : (s.setI a).pc = s.pc := rfl
@[simp] theorem State.setI_sp (a : Addr) : (s.setI a).sp = s.sp := rfl
@[simp] theorem State.setI_stack (a : Addr) : (s.setI a).stack = s.stack := rfl
@[simp] theorem State.setI_DT (a : Addr) : (s.setI a).DT = s.DT := rfl
@[simp] theorem State.setI_ST (a : Addr) : (s.setI a).ST = s.ST := rfl
@[simp] theorem State.setI_K (a : Addr) : (s.setI a).K = s.K := rfl
@[simp] theorem State.setI_M (a : Addr) : (s.setI a).M = s.M := rfl
@[simp] theorem State.setI_FB (a : Addr) : (s.setI a).FB = s.FB := rfl
@[simp] theorem State.setI_EQ (a : Addr) : (s.setI a).EQ = s.EQ := rfl
@[simp] theorem State.setI_run (a : Addr) : (s.setI a).run = s.run := rfl
@[simp] theorem State.setI_started (a : Addr) : (s.setI a).started = s.started := rfl
@[simp] theorem State.setI_wait (a : Addr) : (s.setI a).wait = s.wait := rfl
@[simp] theorem State.setI_fault (a : Addr) : (s.setI a).fault = s.fault := rfl
@[simp] theorem State.setI_faultInfo (a : Addr) : (s.setI a).faultInfo = s.faultInfo := rfl
@[simp] theorem State.setI_IR (a : Addr) : (s.setI a).IR = s.IR := rfl
@[simp] theorem State.setI_phase (a : Addr) : (s.setI a).phase = s.phase := rfl
@[simp] theorem State.setI_schedule (a : Addr) : (s.setI a).schedule = s.schedule := rfl
@[simp] theorem State.setI_reads (a : Addr) : (s.setI a).reads = s.reads := rfl
@[simp] theorem State.setI_freeCount (a : Addr) : (s.setI a).freeCount = s.freeCount := rfl
@[simp] theorem State.setI_eqDepth (a : Addr) : (s.setI a).eqDepth = s.eqDepth := rfl

/-! ### State.setDT -/

@[simp] theorem State.setDT_V (b : Byte) : (s.setDT b).V = s.V := rfl
@[simp] theorem State.setDT_I (b : Byte) : (s.setDT b).I = s.I := rfl
@[simp] theorem State.setDT_pc (b : Byte) : (s.setDT b).pc = s.pc := rfl
@[simp] theorem State.setDT_sp (b : Byte) : (s.setDT b).sp = s.sp := rfl
@[simp] theorem State.setDT_stack (b : Byte) : (s.setDT b).stack = s.stack := rfl
@[simp] theorem State.setDT_DT (b : Byte) : (s.setDT b).DT = b := rfl
@[simp] theorem State.setDT_ST (b : Byte) : (s.setDT b).ST = s.ST := rfl
@[simp] theorem State.setDT_K (b : Byte) : (s.setDT b).K = s.K := rfl
@[simp] theorem State.setDT_M (b : Byte) : (s.setDT b).M = s.M := rfl
@[simp] theorem State.setDT_FB (b : Byte) : (s.setDT b).FB = s.FB := rfl
@[simp] theorem State.setDT_EQ (b : Byte) : (s.setDT b).EQ = s.EQ := rfl
@[simp] theorem State.setDT_run (b : Byte) : (s.setDT b).run = s.run := rfl
@[simp] theorem State.setDT_started (b : Byte) : (s.setDT b).started = s.started := rfl
@[simp] theorem State.setDT_wait (b : Byte) : (s.setDT b).wait = s.wait := rfl
@[simp] theorem State.setDT_fault (b : Byte) : (s.setDT b).fault = s.fault := rfl
@[simp] theorem State.setDT_faultInfo (b : Byte) : (s.setDT b).faultInfo = s.faultInfo := rfl
@[simp] theorem State.setDT_IR (b : Byte) : (s.setDT b).IR = s.IR := rfl
@[simp] theorem State.setDT_phase (b : Byte) : (s.setDT b).phase = s.phase := rfl
@[simp] theorem State.setDT_schedule (b : Byte) : (s.setDT b).schedule = s.schedule := rfl
@[simp] theorem State.setDT_reads (b : Byte) : (s.setDT b).reads = s.reads := rfl
@[simp] theorem State.setDT_freeCount (b : Byte) : (s.setDT b).freeCount = s.freeCount := rfl
@[simp] theorem State.setDT_eqDepth (b : Byte) : (s.setDT b).eqDepth = s.eqDepth := rfl

/-! ### State.setST -/

@[simp] theorem State.setST_V (b : Byte) : (s.setST b).V = s.V := rfl
@[simp] theorem State.setST_I (b : Byte) : (s.setST b).I = s.I := rfl
@[simp] theorem State.setST_pc (b : Byte) : (s.setST b).pc = s.pc := rfl
@[simp] theorem State.setST_sp (b : Byte) : (s.setST b).sp = s.sp := rfl
@[simp] theorem State.setST_stack (b : Byte) : (s.setST b).stack = s.stack := rfl
@[simp] theorem State.setST_DT (b : Byte) : (s.setST b).DT = s.DT := rfl
@[simp] theorem State.setST_ST (b : Byte) : (s.setST b).ST = b := rfl
@[simp] theorem State.setST_K (b : Byte) : (s.setST b).K = s.K := rfl
@[simp] theorem State.setST_M (b : Byte) : (s.setST b).M = s.M := rfl
@[simp] theorem State.setST_FB (b : Byte) : (s.setST b).FB = s.FB := rfl
@[simp] theorem State.setST_EQ (b : Byte) : (s.setST b).EQ = s.EQ := rfl
@[simp] theorem State.setST_run (b : Byte) : (s.setST b).run = s.run := rfl
@[simp] theorem State.setST_started (b : Byte) : (s.setST b).started = s.started := rfl
@[simp] theorem State.setST_wait (b : Byte) : (s.setST b).wait = s.wait := rfl
@[simp] theorem State.setST_fault (b : Byte) : (s.setST b).fault = s.fault := rfl
@[simp] theorem State.setST_faultInfo (b : Byte) : (s.setST b).faultInfo = s.faultInfo := rfl
@[simp] theorem State.setST_IR (b : Byte) : (s.setST b).IR = s.IR := rfl
@[simp] theorem State.setST_phase (b : Byte) : (s.setST b).phase = s.phase := rfl
@[simp] theorem State.setST_schedule (b : Byte) : (s.setST b).schedule = s.schedule := rfl
@[simp] theorem State.setST_reads (b : Byte) : (s.setST b).reads = s.reads := rfl
@[simp] theorem State.setST_freeCount (b : Byte) : (s.setST b).freeCount = s.freeCount := rfl
@[simp] theorem State.setST_eqDepth (b : Byte) : (s.setST b).eqDepth = s.eqDepth := rfl

/-! ### State.setMem -/

@[simp] theorem State.setMem_V (m : Memory) : (s.setMem m).V = s.V := rfl
@[simp] theorem State.setMem_I (m : Memory) : (s.setMem m).I = s.I := rfl
@[simp] theorem State.setMem_pc (m : Memory) : (s.setMem m).pc = s.pc := rfl
@[simp] theorem State.setMem_sp (m : Memory) : (s.setMem m).sp = s.sp := rfl
@[simp] theorem State.setMem_stack (m : Memory) : (s.setMem m).stack = s.stack := rfl
@[simp] theorem State.setMem_DT (m : Memory) : (s.setMem m).DT = s.DT := rfl
@[simp] theorem State.setMem_ST (m : Memory) : (s.setMem m).ST = s.ST := rfl
@[simp] theorem State.setMem_K (m : Memory) : (s.setMem m).K = s.K := rfl
@[simp] theorem State.setMem_M (m : Memory) : (s.setMem m).M = m := rfl
@[simp] theorem State.setMem_FB (m : Memory) : (s.setMem m).FB = s.FB := rfl
@[simp] theorem State.setMem_EQ (m : Memory) : (s.setMem m).EQ = s.EQ := rfl
@[simp] theorem State.setMem_run (m : Memory) : (s.setMem m).run = s.run := rfl
@[simp] theorem State.setMem_started (m : Memory) : (s.setMem m).started = s.started := rfl
@[simp] theorem State.setMem_wait (m : Memory) : (s.setMem m).wait = s.wait := rfl
@[simp] theorem State.setMem_fault (m : Memory) : (s.setMem m).fault = s.fault := rfl
@[simp] theorem State.setMem_faultInfo (m : Memory) : (s.setMem m).faultInfo = s.faultInfo := rfl
@[simp] theorem State.setMem_IR (m : Memory) : (s.setMem m).IR = s.IR := rfl
@[simp] theorem State.setMem_phase (m : Memory) : (s.setMem m).phase = s.phase := rfl
@[simp] theorem State.setMem_schedule (m : Memory) : (s.setMem m).schedule = s.schedule := rfl
@[simp] theorem State.setMem_reads (m : Memory) : (s.setMem m).reads = s.reads := rfl
@[simp] theorem State.setMem_freeCount (m : Memory) : (s.setMem m).freeCount = s.freeCount := rfl
@[simp] theorem State.setMem_eqDepth (m : Memory) : (s.setMem m).eqDepth = s.eqDepth := rfl

/-! ### State.setFB -/

@[simp] theorem State.setFB_V (f : Framebuffer) : (s.setFB f).V = s.V := rfl
@[simp] theorem State.setFB_I (f : Framebuffer) : (s.setFB f).I = s.I := rfl
@[simp] theorem State.setFB_pc (f : Framebuffer) : (s.setFB f).pc = s.pc := rfl
@[simp] theorem State.setFB_sp (f : Framebuffer) : (s.setFB f).sp = s.sp := rfl
@[simp] theorem State.setFB_stack (f : Framebuffer) : (s.setFB f).stack = s.stack := rfl
@[simp] theorem State.setFB_DT (f : Framebuffer) : (s.setFB f).DT = s.DT := rfl
@[simp] theorem State.setFB_ST (f : Framebuffer) : (s.setFB f).ST = s.ST := rfl
@[simp] theorem State.setFB_K (f : Framebuffer) : (s.setFB f).K = s.K := rfl
@[simp] theorem State.setFB_M (f : Framebuffer) : (s.setFB f).M = s.M := rfl
@[simp] theorem State.setFB_FB (f : Framebuffer) : (s.setFB f).FB = f := rfl
@[simp] theorem State.setFB_EQ (f : Framebuffer) : (s.setFB f).EQ = s.EQ := rfl
@[simp] theorem State.setFB_run (f : Framebuffer) : (s.setFB f).run = s.run := rfl
@[simp] theorem State.setFB_started (f : Framebuffer) : (s.setFB f).started = s.started := rfl
@[simp] theorem State.setFB_wait (f : Framebuffer) : (s.setFB f).wait = s.wait := rfl
@[simp] theorem State.setFB_fault (f : Framebuffer) : (s.setFB f).fault = s.fault := rfl
@[simp] theorem State.setFB_faultInfo (f : Framebuffer) : (s.setFB f).faultInfo = s.faultInfo := rfl
@[simp] theorem State.setFB_IR (f : Framebuffer) : (s.setFB f).IR = s.IR := rfl
@[simp] theorem State.setFB_phase (f : Framebuffer) : (s.setFB f).phase = s.phase := rfl
@[simp] theorem State.setFB_schedule (f : Framebuffer) : (s.setFB f).schedule = s.schedule := rfl
@[simp] theorem State.setFB_reads (f : Framebuffer) : (s.setFB f).reads = s.reads := rfl
@[simp] theorem State.setFB_freeCount (f : Framebuffer) : (s.setFB f).freeCount = s.freeCount := rfl
@[simp] theorem State.setFB_eqDepth (f : Framebuffer) : (s.setFB f).eqDepth = s.eqDepth := rfl

/-! ### State.latch -/

@[simp] theorem State.latch_V (op : Word) : (s.latch op).V = s.V := rfl
@[simp] theorem State.latch_I (op : Word) : (s.latch op).I = s.I := rfl
@[simp] theorem State.latch_pc (op : Word) : (s.latch op).pc = s.pc := rfl
@[simp] theorem State.latch_sp (op : Word) : (s.latch op).sp = s.sp := rfl
@[simp] theorem State.latch_stack (op : Word) : (s.latch op).stack = s.stack := rfl
@[simp] theorem State.latch_DT (op : Word) : (s.latch op).DT = s.DT := rfl
@[simp] theorem State.latch_ST (op : Word) : (s.latch op).ST = s.ST := rfl
@[simp] theorem State.latch_K (op : Word) : (s.latch op).K = s.K := rfl
@[simp] theorem State.latch_M (op : Word) : (s.latch op).M = s.M := rfl
@[simp] theorem State.latch_FB (op : Word) : (s.latch op).FB = s.FB := rfl
@[simp] theorem State.latch_EQ (op : Word) : (s.latch op).EQ = s.EQ := rfl
@[simp] theorem State.latch_run (op : Word) : (s.latch op).run = s.run := rfl
@[simp] theorem State.latch_started (op : Word) : (s.latch op).started = s.started := rfl
@[simp] theorem State.latch_wait (op : Word) : (s.latch op).wait = s.wait := rfl
@[simp] theorem State.latch_fault (op : Word) : (s.latch op).fault = s.fault := rfl
@[simp] theorem State.latch_faultInfo (op : Word) : (s.latch op).faultInfo = s.faultInfo := rfl
@[simp] theorem State.latch_IR (op : Word) : (s.latch op).IR = op := rfl
@[simp] theorem State.latch_phase (op : Word) : (s.latch op).phase = s.phase := rfl
@[simp] theorem State.latch_schedule (op : Word) : (s.latch op).schedule = s.schedule := rfl
@[simp] theorem State.latch_reads (op : Word) : (s.latch op).reads = s.reads := rfl
@[simp] theorem State.latch_freeCount (op : Word) : (s.latch op).freeCount = s.freeCount := rfl
@[simp] theorem State.latch_eqDepth (op : Word) : (s.latch op).eqDepth = s.eqDepth := rfl

/-! ### State.useFree -/

@[simp] theorem State.useFree_V : (s.useFree).V = s.V := rfl
@[simp] theorem State.useFree_I : (s.useFree).I = s.I := rfl
@[simp] theorem State.useFree_pc : (s.useFree).pc = s.pc := rfl
@[simp] theorem State.useFree_sp : (s.useFree).sp = s.sp := rfl
@[simp] theorem State.useFree_stack : (s.useFree).stack = s.stack := rfl
@[simp] theorem State.useFree_DT : (s.useFree).DT = s.DT := rfl
@[simp] theorem State.useFree_ST : (s.useFree).ST = s.ST := rfl
@[simp] theorem State.useFree_K : (s.useFree).K = s.K := rfl
@[simp] theorem State.useFree_M : (s.useFree).M = s.M := rfl
@[simp] theorem State.useFree_FB : (s.useFree).FB = s.FB := rfl
@[simp] theorem State.useFree_EQ : (s.useFree).EQ = s.EQ := rfl
@[simp] theorem State.useFree_run : (s.useFree).run = s.run := rfl
@[simp] theorem State.useFree_started : (s.useFree).started = s.started := rfl
@[simp] theorem State.useFree_wait : (s.useFree).wait = s.wait := rfl
@[simp] theorem State.useFree_fault : (s.useFree).fault = s.fault := rfl
@[simp] theorem State.useFree_faultInfo : (s.useFree).faultInfo = s.faultInfo := rfl
@[simp] theorem State.useFree_IR : (s.useFree).IR = s.IR := rfl
@[simp] theorem State.useFree_phase : (s.useFree).phase = s.phase := rfl
@[simp] theorem State.useFree_schedule : (s.useFree).schedule = s.schedule := rfl
@[simp] theorem State.useFree_reads : (s.useFree).reads = s.reads := rfl
@[simp] theorem State.useFree_freeCount : (s.useFree).freeCount = s.freeCount + 1 := rfl
@[simp] theorem State.useFree_eqDepth : (s.useFree).eqDepth = s.eqDepth := rfl

/-! ### State.raise -/

@[simp] theorem State.raise_V (r : Raised) : (s.raise r).V = s.V := rfl
@[simp] theorem State.raise_I (r : Raised) : (s.raise r).I = s.I := rfl
@[simp] theorem State.raise_pc (r : Raised) : (s.raise r).pc = s.pc := rfl
@[simp] theorem State.raise_sp (r : Raised) : (s.raise r).sp = s.sp := rfl
@[simp] theorem State.raise_stack (r : Raised) : (s.raise r).stack = s.stack := rfl
@[simp] theorem State.raise_DT (r : Raised) : (s.raise r).DT = s.DT := rfl
@[simp] theorem State.raise_ST (r : Raised) : (s.raise r).ST = s.ST := rfl
@[simp] theorem State.raise_K (r : Raised) : (s.raise r).K = s.K := rfl
@[simp] theorem State.raise_M (r : Raised) : (s.raise r).M = s.M := rfl
@[simp] theorem State.raise_FB (r : Raised) : (s.raise r).FB = s.FB := rfl
@[simp] theorem State.raise_EQ (r : Raised) : (s.raise r).EQ = s.EQ := rfl
@[simp] theorem State.raise_run (r : Raised) : (s.raise r).run = false := rfl
@[simp] theorem State.raise_started (r : Raised) : (s.raise r).started = s.started := rfl
@[simp] theorem State.raise_wait (r : Raised) : (s.raise r).wait = s.wait := rfl
@[simp] theorem State.raise_fault (r : Raised) : (s.raise r).fault = r.cause := rfl
@[simp] theorem State.raise_faultInfo (r : Raised) : (s.raise r).faultInfo = r.info := rfl
@[simp] theorem State.raise_IR (r : Raised) : (s.raise r).IR = s.IR := rfl
@[simp] theorem State.raise_phase (r : Raised) : (s.raise r).phase = s.phase := rfl
@[simp] theorem State.raise_schedule (r : Raised) : (s.raise r).schedule = s.schedule := rfl
@[simp] theorem State.raise_reads (r : Raised) : (s.raise r).reads = s.reads := rfl
@[simp] theorem State.raise_freeCount (r : Raised) : (s.raise r).freeCount = s.freeCount := rfl
@[simp] theorem State.raise_eqDepth (r : Raised) : (s.raise r).eqDepth = s.eqDepth := rfl

/-! ### State.tick -/

@[simp] theorem State.tick_V : (s.tick).V = s.V := rfl
@[simp] theorem State.tick_I : (s.tick).I = s.I := rfl
@[simp] theorem State.tick_pc : (s.tick).pc = s.pc := rfl
@[simp] theorem State.tick_sp : (s.tick).sp = s.sp := rfl
@[simp] theorem State.tick_stack : (s.tick).stack = s.stack := rfl
@[simp] theorem State.tick_DT : (s.tick).DT = countDown s.DT := rfl
@[simp] theorem State.tick_ST : (s.tick).ST = countDown s.ST := rfl
@[simp] theorem State.tick_K : (s.tick).K = s.K := rfl
@[simp] theorem State.tick_M : (s.tick).M = s.M := rfl
@[simp] theorem State.tick_FB : (s.tick).FB = s.FB := rfl
@[simp] theorem State.tick_EQ : (s.tick).EQ = s.EQ := rfl
@[simp] theorem State.tick_run : (s.tick).run = s.run := rfl
@[simp] theorem State.tick_started : (s.tick).started = s.started := rfl
@[simp] theorem State.tick_wait : (s.tick).wait = s.wait := rfl
@[simp] theorem State.tick_fault : (s.tick).fault = s.fault := rfl
@[simp] theorem State.tick_faultInfo : (s.tick).faultInfo = s.faultInfo := rfl
@[simp] theorem State.tick_IR : (s.tick).IR = s.IR := rfl
@[simp] theorem State.tick_phase : (s.tick).phase = s.phase := rfl
@[simp] theorem State.tick_schedule : (s.tick).schedule = s.schedule := rfl
@[simp] theorem State.tick_reads : (s.tick).reads = s.reads := rfl
@[simp] theorem State.tick_freeCount : (s.tick).freeCount = s.freeCount := rfl
@[simp] theorem State.tick_eqDepth : (s.tick).eqDepth = s.eqDepth := rfl

/-! ### State.complete -/

@[simp] theorem State.complete_V (p : Word) : (s.complete p).V = s.V := rfl
@[simp] theorem State.complete_I (p : Word) : (s.complete p).I = s.I := rfl
@[simp] theorem State.complete_pc (p : Word) : (s.complete p).pc = p := rfl
@[simp] theorem State.complete_sp (p : Word) : (s.complete p).sp = s.sp := rfl
@[simp] theorem State.complete_stack (p : Word) : (s.complete p).stack = s.stack := rfl
@[simp] theorem State.complete_DT (p : Word) : (s.complete p).DT = countDown s.DT := rfl
@[simp] theorem State.complete_ST (p : Word) : (s.complete p).ST = countDown s.ST := rfl
@[simp] theorem State.complete_K (p : Word) : (s.complete p).K = s.K := rfl
@[simp] theorem State.complete_M (p : Word) : (s.complete p).M = s.M := rfl
@[simp] theorem State.complete_FB (p : Word) : (s.complete p).FB = s.FB := rfl
@[simp] theorem State.complete_EQ (p : Word) : (s.complete p).EQ = s.EQ := rfl
@[simp] theorem State.complete_run (p : Word) : (s.complete p).run = s.run := rfl
@[simp] theorem State.complete_started (p : Word) : (s.complete p).started = s.started := rfl
@[simp] theorem State.complete_wait (p : Word) : (s.complete p).wait = s.wait := rfl
@[simp] theorem State.complete_fault (p : Word) : (s.complete p).fault = s.fault := rfl
@[simp] theorem State.complete_faultInfo (p : Word) : (s.complete p).faultInfo = s.faultInfo := rfl
@[simp] theorem State.complete_IR (p : Word) : (s.complete p).IR = s.IR := rfl
@[simp] theorem State.complete_phase (p : Word) : (s.complete p).phase = .drain := rfl
@[simp] theorem State.complete_schedule (p : Word) : (s.complete p).schedule = s.schedule := rfl
@[simp] theorem State.complete_reads (p : Word) : (s.complete p).reads = s.reads := rfl
@[simp] theorem State.complete_freeCount (p : Word) : (s.complete p).freeCount = s.freeCount := rfl
@[simp] theorem State.complete_eqDepth (p : Word) : (s.complete p).eqDepth = s.eqDepth := rfl

/-! ### State.suspend -/

@[simp] theorem State.suspend_V : (s.suspend).V = s.V := rfl
@[simp] theorem State.suspend_I : (s.suspend).I = s.I := rfl
@[simp] theorem State.suspend_pc : (s.suspend).pc = s.pc := rfl
@[simp] theorem State.suspend_sp : (s.suspend).sp = s.sp := rfl
@[simp] theorem State.suspend_stack : (s.suspend).stack = s.stack := rfl
@[simp] theorem State.suspend_DT : (s.suspend).DT = s.DT := rfl
@[simp] theorem State.suspend_ST : (s.suspend).ST = s.ST := rfl
@[simp] theorem State.suspend_K : (s.suspend).K = s.K := rfl
@[simp] theorem State.suspend_M : (s.suspend).M = s.M := rfl
@[simp] theorem State.suspend_FB : (s.suspend).FB = s.FB := rfl
@[simp] theorem State.suspend_EQ : (s.suspend).EQ = [] := rfl
@[simp] theorem State.suspend_run : (s.suspend).run = s.run := rfl
@[simp] theorem State.suspend_started : (s.suspend).started = s.started := rfl
@[simp] theorem State.suspend_wait : (s.suspend).wait = true := rfl
@[simp] theorem State.suspend_fault : (s.suspend).fault = s.fault := rfl
@[simp] theorem State.suspend_faultInfo : (s.suspend).faultInfo = s.faultInfo := rfl
@[simp] theorem State.suspend_IR : (s.suspend).IR = s.IR := rfl
@[simp] theorem State.suspend_phase : (s.suspend).phase = .drain := rfl
@[simp] theorem State.suspend_schedule : (s.suspend).schedule = s.schedule := rfl
@[simp] theorem State.suspend_reads : (s.suspend).reads = s.reads := rfl
@[simp] theorem State.suspend_freeCount : (s.suspend).freeCount = s.freeCount := rfl
@[simp] theorem State.suspend_eqDepth : (s.suspend).eqDepth = s.eqDepth := rfl

/-! ### State.endWait -/

@[simp] theorem State.endWait_V (k : Key) : (s.endWait k).V = s.V.set (fieldX s.IR) (BitVec.ofNat 8 k.val) := rfl
@[simp] theorem State.endWait_I (k : Key) : (s.endWait k).I = s.I := rfl
@[simp] theorem State.endWait_pc (k : Key) : (s.endWait k).pc = s.pcNext := rfl
@[simp] theorem State.endWait_sp (k : Key) : (s.endWait k).sp = s.sp := rfl
@[simp] theorem State.endWait_stack (k : Key) : (s.endWait k).stack = s.stack := rfl
@[simp] theorem State.endWait_DT (k : Key) : (s.endWait k).DT = countDown s.DT := rfl
@[simp] theorem State.endWait_ST (k : Key) : (s.endWait k).ST = countDown s.ST := rfl
@[simp] theorem State.endWait_K (k : Key) : (s.endWait k).K = s.K := rfl
@[simp] theorem State.endWait_M (k : Key) : (s.endWait k).M = s.M := rfl
@[simp] theorem State.endWait_FB (k : Key) : (s.endWait k).FB = s.FB := rfl
@[simp] theorem State.endWait_EQ (k : Key) : (s.endWait k).EQ = s.EQ := rfl
@[simp] theorem State.endWait_run (k : Key) : (s.endWait k).run = s.run := rfl
@[simp] theorem State.endWait_started (k : Key) : (s.endWait k).started = s.started := rfl
@[simp] theorem State.endWait_wait (k : Key) : (s.endWait k).wait = false := rfl
@[simp] theorem State.endWait_fault (k : Key) : (s.endWait k).fault = s.fault := rfl
@[simp] theorem State.endWait_faultInfo (k : Key) : (s.endWait k).faultInfo = s.faultInfo := rfl
@[simp] theorem State.endWait_IR (k : Key) : (s.endWait k).IR = s.IR := rfl
@[simp] theorem State.endWait_phase (k : Key) : (s.endWait k).phase = .drain := rfl
@[simp] theorem State.endWait_schedule (k : Key) : (s.endWait k).schedule = s.schedule := rfl
@[simp] theorem State.endWait_reads (k : Key) : (s.endWait k).reads = s.reads := rfl
@[simp] theorem State.endWait_freeCount (k : Key) : (s.endWait k).freeCount = s.freeCount := rfl
@[simp] theorem State.endWait_eqDepth (k : Key) : (s.endWait k).eqDepth = s.eqDepth := rfl

/-! ### waitComplete -/

@[simp] theorem waitComplete_V (k : Key) : (waitComplete k s).V = s.V.set (fieldX s.IR) (BitVec.ofNat 8 k.val) := rfl
@[simp] theorem waitComplete_I (k : Key) : (waitComplete k s).I = s.I := rfl
@[simp] theorem waitComplete_pc (k : Key) : (waitComplete k s).pc = s.pcNext := rfl
@[simp] theorem waitComplete_sp (k : Key) : (waitComplete k s).sp = s.sp := rfl
@[simp] theorem waitComplete_stack (k : Key) : (waitComplete k s).stack = s.stack := rfl
@[simp] theorem waitComplete_DT (k : Key) : (waitComplete k s).DT = countDown s.DT := rfl
@[simp] theorem waitComplete_ST (k : Key) : (waitComplete k s).ST = countDown s.ST := rfl
@[simp] theorem waitComplete_K (k : Key) : (waitComplete k s).K = s.K := rfl
@[simp] theorem waitComplete_M (k : Key) : (waitComplete k s).M = s.M := rfl
@[simp] theorem waitComplete_FB (k : Key) : (waitComplete k s).FB = s.FB := rfl
@[simp] theorem waitComplete_EQ (k : Key) : (waitComplete k s).EQ = [] := rfl
@[simp] theorem waitComplete_run (k : Key) : (waitComplete k s).run = s.run := rfl
@[simp] theorem waitComplete_started (k : Key) : (waitComplete k s).started = s.started := rfl
@[simp] theorem waitComplete_wait (k : Key) : (waitComplete k s).wait = false := rfl
@[simp] theorem waitComplete_fault (k : Key) : (waitComplete k s).fault = s.fault := rfl
@[simp] theorem waitComplete_faultInfo (k : Key) : (waitComplete k s).faultInfo = s.faultInfo := rfl
@[simp] theorem waitComplete_IR (k : Key) : (waitComplete k s).IR = s.IR := rfl
@[simp] theorem waitComplete_phase (k : Key) : (waitComplete k s).phase = .drain := rfl
@[simp] theorem waitComplete_schedule (k : Key) : (waitComplete k s).schedule = s.schedule := rfl
@[simp] theorem waitComplete_reads (k : Key) : (waitComplete k s).reads = s.reads := rfl
@[simp] theorem waitComplete_freeCount (k : Key) : (waitComplete k s).freeCount = s.freeCount := rfl
@[simp] theorem waitComplete_eqDepth (k : Key) : (waitComplete k s).eqDepth = s.eqDepth := rfl

/-! ### coreDrain -/

@[simp] theorem coreDrain_V : (coreDrain s).V = s.V := rfl
@[simp] theorem coreDrain_I : (coreDrain s).I = s.I := rfl
@[simp] theorem coreDrain_pc : (coreDrain s).pc = s.pc := rfl
@[simp] theorem coreDrain_sp : (coreDrain s).sp = s.sp := rfl
@[simp] theorem coreDrain_stack : (coreDrain s).stack = s.stack := rfl
@[simp] theorem coreDrain_DT : (coreDrain s).DT = s.DT := rfl
@[simp] theorem coreDrain_ST : (coreDrain s).ST = s.ST := rfl
@[simp] theorem coreDrain_K : (coreDrain s).K = applyEvents s.K s.EQ := rfl
@[simp] theorem coreDrain_M : (coreDrain s).M = s.M := rfl
@[simp] theorem coreDrain_FB : (coreDrain s).FB = s.FB := rfl
@[simp] theorem coreDrain_EQ : (coreDrain s).EQ = [] := rfl
@[simp] theorem coreDrain_run : (coreDrain s).run = s.run := rfl
@[simp] theorem coreDrain_started : (coreDrain s).started = s.started := rfl
@[simp] theorem coreDrain_wait : (coreDrain s).wait = s.wait := rfl
@[simp] theorem coreDrain_fault : (coreDrain s).fault = s.fault := rfl
@[simp] theorem coreDrain_faultInfo : (coreDrain s).faultInfo = s.faultInfo := rfl
@[simp] theorem coreDrain_IR : (coreDrain s).IR = s.IR := rfl
@[simp] theorem coreDrain_phase : (coreDrain s).phase = .exec := rfl
@[simp] theorem coreDrain_schedule : (coreDrain s).schedule = s.schedule := rfl
@[simp] theorem coreDrain_reads : (coreDrain s).reads = s.reads := rfl
@[simp] theorem coreDrain_freeCount : (coreDrain s).freeCount = s.freeCount := rfl
@[simp] theorem coreDrain_eqDepth : (coreDrain s).eqDepth = s.eqDepth := rfl

/-! ### State.record -/

@[simp] theorem State.record_V (r : Reading) : (s.record r).V = s.V := rfl
@[simp] theorem State.record_I (r : Reading) : (s.record r).I = s.I := rfl
@[simp] theorem State.record_pc (r : Reading) : (s.record r).pc = s.pc := rfl
@[simp] theorem State.record_sp (r : Reading) : (s.record r).sp = s.sp := rfl
@[simp] theorem State.record_stack (r : Reading) : (s.record r).stack = s.stack := rfl
@[simp] theorem State.record_DT (r : Reading) : (s.record r).DT = s.DT := rfl
@[simp] theorem State.record_ST (r : Reading) : (s.record r).ST = s.ST := rfl
@[simp] theorem State.record_K (r : Reading) : (s.record r).K = s.K := rfl
@[simp] theorem State.record_M (r : Reading) : (s.record r).M = s.M := rfl
@[simp] theorem State.record_FB (r : Reading) : (s.record r).FB = s.FB := rfl
@[simp] theorem State.record_EQ (r : Reading) : (s.record r).EQ = s.EQ := rfl
@[simp] theorem State.record_run (r : Reading) : (s.record r).run = s.run := rfl
@[simp] theorem State.record_started (r : Reading) : (s.record r).started = s.started := rfl
@[simp] theorem State.record_wait (r : Reading) : (s.record r).wait = s.wait := rfl
@[simp] theorem State.record_fault (r : Reading) : (s.record r).fault = s.fault := rfl
@[simp] theorem State.record_faultInfo (r : Reading) : (s.record r).faultInfo = s.faultInfo := rfl
@[simp] theorem State.record_IR (r : Reading) : (s.record r).IR = s.IR := rfl
@[simp] theorem State.record_phase (r : Reading) : (s.record r).phase = s.phase := rfl
@[simp] theorem State.record_schedule (r : Reading) : (s.record r).schedule = s.schedule := rfl
@[simp] theorem State.record_reads (r : Reading) : (s.record r).reads = s.reads ++ [r] := rfl
@[simp] theorem State.record_freeCount (r : Reading) : (s.record r).freeCount = s.freeCount := rfl
@[simp] theorem State.record_eqDepth (r : Reading) : (s.record r).eqDepth = s.eqDepth := rfl

/-! ### Reading a register after an update -/

theorem State.reg_def (x : Reg) : s.reg x = s.V[x] := rfl

@[simp] theorem State.reg_setReg (x y : Reg) (b : Byte) :
    (s.setReg x b).reg y = if x = y then b else s.reg y := by
  simp only [State.reg, State.setReg]
  by_cases h : x = y
  · subst h; simp
  · have hv : x.val ≠ y.val := fun e => h (Fin.ext e)
    simp [h, hv]

theorem State.reg_setReg_self (x : Reg) (b : Byte) : (s.setReg x b).reg x = b := by simp

theorem State.reg_setReg_of_ne {x y : Reg} (b : Byte) (h : x ≠ y) : (s.setReg x b).reg y = s.reg y := by
  simp [h]

/-- A register is read from V alone. -/
theorem State.reg_congr {s t : State} (h : t.V = s.V) (x : Reg) : t.reg x = s.reg x := by
  simp [State.reg, h]

@[simp] theorem State.reg_setI (a : Addr) (y : Reg) : (s.setI a).reg y = s.reg y := rfl
@[simp] theorem State.reg_setDT (b : Byte) (y : Reg) : (s.setDT b).reg y = s.reg y := rfl
@[simp] theorem State.reg_setST (b : Byte) (y : Reg) : (s.setST b).reg y = s.reg y := rfl
@[simp] theorem State.reg_setMem (m : Memory) (y : Reg) : (s.setMem m).reg y = s.reg y := rfl
@[simp] theorem State.reg_setFB (f : Framebuffer) (y : Reg) : (s.setFB f).reg y = s.reg y := rfl
@[simp] theorem State.reg_latch (op : Word) (y : Reg) : (s.latch op).reg y = s.reg y := rfl
@[simp] theorem State.reg_useFree (y : Reg) : (s.useFree).reg y = s.reg y := rfl
@[simp] theorem State.reg_raise (r : Raised) (y : Reg) : (s.raise r).reg y = s.reg y := rfl
@[simp] theorem State.reg_tick (y : Reg) : (s.tick).reg y = s.reg y := rfl
@[simp] theorem State.reg_complete (p : Word) (y : Reg) : (s.complete p).reg y = s.reg y := rfl
@[simp] theorem State.reg_suspend (y : Reg) : (s.suspend).reg y = s.reg y := rfl
@[simp] theorem State.reg_coreDrain (y : Reg) : (coreDrain s).reg y = s.reg y := rfl
@[simp] theorem State.reg_record (r : Reading) (y : Reg) : (s.record r).reg y = s.reg y := rfl

end Sys2Proof.Machine
end

