-- ==== Sys2Proof/Laws/Ops.lean ====
section
/-!
SUPPORT. One law per shared operation: what it answers, said once, so that no later proof unfolds it.
-/
namespace Sys2Proof.Machine

/-! ### Timers and flags -/

/-- A count is the predecessor on the natural numbers, 0 staying 0 (R126). -/
theorem countDown_toNat (t : Byte) : (countDown t).toNat = t.toNat - 1 := by
  unfold countDown
  have := t.isLt
  split
  · rw [BitVec.toNat_sub]
    simp only [BitVec.toNat_ofNat]
    omega
  · omega

theorem flag_true : flag true = 1#8 := rfl
theorem flag_false : flag false = 0#8 := rfl

theorem carryFlag_eq (a b : Byte) : carryFlag a b = if a.toNat + b.toNat > 255 then 1#8 else 0#8 := by
  by_cases h : 255 < a.toNat + b.toNat
  · simp [carryFlag, sum, flag, h]
  · simp [carryFlag, sum, flag, h]

theorem sumByte_toNat (a b : Byte) : (sumByte a b).toNat = (a.toNat + b.toNat) % 256 := by
  simp only [sumByte, sum, BitVec.toNat_ofNat]
  omega

theorem sumByte_eq_add (a b : Byte) : sumByte a b = a + b := by
  apply BitVec.eq_of_toNat_eq
  rw [sumByte_toNat, BitVec.toNat_add]

theorem notBorrowFlag_eq (a b : Byte) : notBorrowFlag a b = if a.toNat < b.toNat then 0#8 else 1#8 := by
  by_cases h : a.toNat < b.toNat
  · have : (a.toNat : Int) - (b.toNat : Int) < 0 := by omega
    simp [notBorrowFlag, diff, flag, h]
  · have : ¬ (a.toNat : Int) - (b.toNat : Int) < 0 := by omega
    simp [notBorrowFlag, diff, flag, h]

theorem diffByte_toNat (a b : Byte) : (diffByte a b).toNat = (256 + a.toNat - b.toNat) % 256 := by
  have := a.isLt
  have := b.isLt
  simp only [diffByte, diff, BitVec.toNat_ofInt]
  omega

theorem diffByte_eq_sub (a b : Byte) : diffByte a b = a - b := by
  apply BitVec.eq_of_toNat_eq
  have := a.isLt
  have := b.isLt
  rw [diffByte_toNat, BitVec.toNat_sub]
  omega

theorem indexFlag_eq (i : Addr) (b : Byte) : indexFlag i b = if i.toNat + b.toNat > 0xFFF then 1#8 else 0#8 := by
  by_cases h : 0xFFF < i.toNat + b.toNat
  · simp [indexFlag, indexSum, flag, h]
  · simp [indexFlag, indexSum, flag, h]

theorem indexResult_toNat (i : Addr) (b : Byte) : (indexResult i b).toNat = (i.toNat + b.toNat) % 0xFFF := by
  simp only [indexResult, indexSum, Config.iModulus, BitVec.toNat_ofNat]
  omega

/-! ### Operands -/

theorem target_toNat (nnn : Addr) : (target nnn).toNat = nnn.toNat := by
  have := nnn.isLt
  simp only [target, BitVec.zeroExtend_eq_setWidth, BitVec.toNat_setWidth]
  omega

theorem targetPlusV0_toNat (s : State) (nnn : Addr) :
    (targetPlusV0 s nnn).toNat = nnn.toNat + (s.reg 0).toNat := by
  have := nnn.isLt
  have := (s.reg 0).isLt
  simp only [targetPlusV0, BitVec.zeroExtend_eq_setWidth, BitVec.toNat_add, BitVec.toNat_setWidth]
  omega

/-- The base address itself. -/
theorem effAddr_zero (s : State) : effAddr s 0 = s.I.toNat := rfl

theorem blockFault?_none {s : State} {last : Nat} (h : s.I.toNat + last < 4096) : blockFault? s last = none := by
  exact if_neg (by simp only [effAddr, Config.lastAddr]; omega)

theorem blockFault?_some {s : State} {last : Nat} (h : ¬ s.I.toNat + last < 4096) :
    blockFault? s last = some (addressFault (s.I.toNat + last)) := by
  exact if_pos (by simp only [effAddr, Config.lastAddr]; omega)

theorem keyOperand_ok {b : Byte} (h : b.toNat < 16) : keyOperand b = .ok ⟨b.toNat, h⟩ := by
  rw [keyOperand, dif_pos h]

theorem keyOperand_error {b : Byte} (h : ¬ b.toNat < 16) :
    keyOperand b = .error ⟨.invalidKeyIndex, b.zeroExtend 16⟩ := by
  rw [keyOperand, dif_neg h]

/-! ### The return stack -/

theorem State.push?_of_lt {s : State} (w : Word) (h : s.sp.val < 16) :
    s.push? w = some { s with stack := s.stack.set s.sp.val w h, sp := ⟨s.sp.val + 1, by omega⟩ } := by
  rw [State.push?, dif_pos h]

theorem State.push?_full {s : State} (w : Word) (h : ¬ s.sp.val < 16) : s.push? w = none := by
  rw [State.push?, dif_neg h]

theorem State.pop?_of_pos {s : State} (h : s.sp.val ≠ 0) :
    s.pop? = some (s.stackAt (s.sp.val - 1), { s with sp := ⟨s.sp.val - 1, by omega⟩ }) := by
  rw [State.pop?, if_neg h]

theorem State.pop?_empty {s : State} (h : s.sp.val = 0) : s.pop? = none := by
  rw [State.pop?, if_pos h]

theorem State.stackAt_of_lt {s : State} {d : Nat} (h : d < 16) : s.stackAt d = s.stack[d] := by
  rw [State.stackAt, dif_pos h]

/-! ### Register blocks -/

theorem State.regsUpTo_length (s : State) (x : Reg) : (s.regsUpTo x).length = x.val + 1 := by
  have := x.isLt
  simp only [State.regsUpTo, List.length_take, Vector.length_toList]
  omega

theorem State.regsUpTo_getElem (s : State) (x r : Reg) (h : r.val < (s.regsUpTo x).length) :
    (s.regsUpTo x)[r.val] = s.reg r := by
  simp [State.regsUpTo, State.reg]

/-- A register outside the block keeps its value. -/
theorem writeRegs_outside {v : Vector Byte 16} {x : Nat} {bs : List Byte} {r : Nat} (hr : r < 16)
    (h : r < x ∨ x + bs.length ≤ r) : (writeRegs v x bs)[r] = v[r] := by
  induction bs generalizing v x with
  | nil => rfl
  | cons b bs ih =>
    rw [List.length_cons] at h
    rw [writeRegs, ih (by omega)]
    split
    · rw [Vector.getElem_set_ne _ _ (by omega)]
    · rfl

/-- A register inside the block receives its byte. -/
theorem writeRegs_inside {v : Vector Byte 16} {x : Nat} {bs : List Byte} (hx : x + bs.length ≤ 16) {r : Nat}
    (hr : r < 16) (hl : x ≤ r) (hu : r < x + bs.length) :
    (writeRegs v x bs)[r] = bs[r - x]'(by omega) := by
  induction bs generalizing v x with
  | nil => rw [List.length_nil] at hu; omega
  | cons b bs ih =>
    rw [List.length_cons] at hx hu
    rw [writeRegs]
    by_cases he : r = x
    · subst he
      rw [writeRegs_outside hr (by omega), dif_pos hr, Vector.getElem_set_self]
      simp only [Nat.sub_self, List.getElem_cons_zero]
    · rw [ih (by omega) (by omega) (by omega)]
      have hidx : r - x = (r - (x + 1)) + 1 := by omega
      simp only [hidx, List.getElem_cons_succ]

/-! ### Key events -/

theorem applyEvents_nil (keys : Vector Bool 16) : applyEvents keys [] = keys := rfl

theorem applyEvents_append (keys : Vector Bool 16) (es fs : List KeyEvent) :
    applyEvents keys (es ++ fs) = applyEvents (applyEvents keys es) fs := List.foldl_append

/-- The youngest event decides its own key and leaves the others (R254). -/
theorem applyEvents_concat (keys : Vector Bool 16) (es : List KeyEvent) (e : KeyEvent) :
    applyEvents keys (es ++ [e]) = (applyEvents keys es).set e.key e.down := by
  rw [applyEvents_append]; rfl

/-- A key without an event keeps its state. -/
theorem applyEvents_other {keys : Vector Bool 16} {es : List KeyEvent} {k : Key} (h : ∀ e ∈ es, e.key ≠ k) :
    (applyEvents keys es)[k] = keys[k] := by
  induction es generalizing keys with
  | nil => rfl
  | cons e es ih =>
    have hv : e.key.val ≠ k.val := fun hk => h e List.mem_cons_self (Fin.ext hk)
    exact (ih fun f hf => h f (List.mem_cons_of_mem _ hf)).trans (by simp [applyEvent, hv])

theorem oldestDown_up {e : KeyEvent} (es : List KeyEvent) (h : e.down = false) : oldestDown (e :: es) = oldestDown es := by
  simp [oldestDown, h]

theorem oldestDown_down {e : KeyEvent} (es : List KeyEvent) (h : e.down = true) : oldestDown (e :: es) = some e.key := by
  simp [oldestDown, h]

/-- No key is found exactly when no event is a down event. -/
theorem oldestDown_eq_none {es : List KeyEvent} : oldestDown es = none ↔ ∀ e ∈ es, e.down = false := by
  induction es with
  | nil => simp [oldestDown]
  | cons e es ih =>
    cases h : e.down with
    | true => simp [oldestDown, h]
    | false => simp [oldestDown, h, ih]

/-- Up events before the first down event are passed over. -/
theorem oldestDown_append {us : List KeyEvent} (hu : ∀ e ∈ us, e.down = false) (es : List KeyEvent) :
    oldestDown (us ++ es) = oldestDown es := by
  induction us with
  | nil => rfl
  | cons u us ih =>
    rw [List.cons_append, oldestDown_up _ (hu u List.mem_cons_self)]
    exact ih fun e he => hu e (List.mem_cons_of_mem _ he)

/-! ### The framebuffer -/

theorem Framebuffer.get_set (f : Framebuffer) (y : Fin 32) (row : BitVec 64) (px : Fin 64) (py : Fin 32) :
    Framebuffer.get (f.set y row) px py = if y = py then row.getLsbD px else f.get px py := by
  by_cases h : y = py
  · subst h; simp [Framebuffer.get]
  · have hv : y.val ≠ py.val := fun e => h (Fin.ext e)
    simp [Framebuffer.get, h, hv]

theorem Framebuffer.get_blank (px : Fin 64) (py : Fin 32) : Framebuffer.blank.get px py = false := by
  simp [Framebuffer.get, Framebuffer.blank]

/-- Two framebuffers with the same pixels are the same data. -/
theorem Framebuffer.ext {f g : Framebuffer} (h : ∀ px py, f.get px py = g.get px py) : f = g := by
  refine Vector.ext fun y hy => BitVec.eq_of_getLsbD_eq fun x hx => ?_
  exact h ⟨x, hx⟩ ⟨y, hy⟩

/-- A source bit of 1 toggles its pixel and no other; a source bit of 0 toggles none. -/
theorem drawBit_pixel (on : Bool) (x : Fin 64) (d : Drawn (BitVec 64)) (px : Fin 64) :
    (drawBit on x d).pixels.getLsbD px = (d.pixels.getLsbD px ^^ (on && decide (x = px))) := by
  have hxl := x.isLt
  cases on with
  | false => simp only [drawBit, Bool.false_eq_true, if_false, Bool.false_and, Bool.bne_false]
  | true =>
    have hx : decide (x = px) = decide (x.val = px.val) := by simp only [Fin.ext_iff]
    simp only [drawBit, if_true, BitVec.getLsbD_xor, BitVec.getLsbD_twoPow, hxl, decide_true, Bool.true_and, hx]

theorem drawBit_hit (on : Bool) (x : Fin 64) (d : Drawn (BitVec 64)) :
    (drawBit on x d).hit = (d.hit || (on && d.pixels.getLsbD x)) := by
  cases on <;> simp [drawBit]

/-- A drawn pixel of the whole framebuffer: the row of the byte holds the row drawn, every other row is as before. -/
theorem drawByte_pixel (b : Byte) (x0 y : Nat) (d : Drawn Framebuffer) (px : Fin 64) (py : Fin 32) :
    (drawByte b x0 y d).pixels.get px py =
      if wrapY y = py then (drawBits b x0 8 ⟨d.pixels[wrapY y], d.hit⟩).pixels.getLsbD px else d.pixels.get px py := by
  simp only [drawByte, Framebuffer.get_set]

theorem drawByte_hit (b : Byte) (x0 y : Nat) (d : Drawn Framebuffer) :
    (drawByte b x0 y d).hit = (drawBits b x0 8 ⟨d.pixels[wrapY y], d.hit⟩).hit := rfl

/-- A torn grid's pixel is the one before or the one after. -/
theorem tornGrid_get (use : Nat) (before after : Framebuffer) (px : Fin 64) (py : Fin 32) :
    (tornGrid use before after).get px py =
      if (Config.tornRow use py).getLsbD px then after.get px py else before.get px py := by
  have hpx := px.isLt
  simp only [tornGrid, Framebuffer.get, Fin.getElem_fin, Vector.getElem_ofFn, BitVec.getLsbD_or, BitVec.getLsbD_and,
    BitVec.getLsbD_not, hpx, decide_true, Bool.true_and]
  cases (Config.tornRow use py).getLsbD px.val
  · simp only [Bool.and_false, Bool.not_false, Bool.and_true, Bool.false_or, Bool.false_eq_true, if_false]
  · simp only [Bool.and_true, Bool.not_true, Bool.and_false, Bool.or_false, if_true]

end Sys2Proof.Machine
end

