-- ==== Sys2Proof/Laws/Display.lean ====
section
/-!
SUPPORT. The draw engine as a whole: the loops over rows and bits toggle exactly the covered pixels, each once, and
report whether one of them was on.
-/
namespace Sys2Proof.Machine

/-- One of the last n bits of b, drawn from column x0, is set and falls on column px. -/
def BitCovers (b : Byte) (x0 n : Nat) (px : Fin 64) : Prop :=
  ∃ bit, 8 - n ≤ bit ∧ bit < 8 ∧ px.val = (x0 + bit) % 64 ∧ b.getLsbD (7 - bit) = true

/-- A set bit of the bytes, drawn from (x0, y0), falls on (px, py). -/
def BytesCover (bs : List Byte) (x0 y0 : Nat) (px : Fin 64) (py : Fin 32) : Prop :=
  ∃ row bit : Nat, ∃ _ : row < bs.length, bit < 8 ∧ px.val = (x0 + bit) % 64 ∧ py.val = (y0 + row) % 32 ∧
    (bs[row]).getLsbD (7 - bit) = true

theorem BitCovers.succ_iff {b : Byte} {x0 n : Nat} (hn : n < 8) (px : Fin 64) :
    BitCovers b x0 (n + 1) px ↔ BitCovers b x0 n px ∨ (spriteBit b (7 - n) = true ∧ wrapX (x0 + (7 - n)) = px) := by
  constructor
  · rintro ⟨bit, h1, h2, h3, h4⟩
    by_cases hb : bit = 7 - n
    · subst hb; exact .inr ⟨h4, Fin.ext h3.symm⟩
    · exact .inl ⟨bit, by omega, h2, h3, h4⟩
  · rintro (⟨bit, h1, h2, h3, h4⟩ | ⟨h1, h2⟩)
    · exact ⟨bit, by omega, h2, h3, h4⟩
    · exact ⟨7 - n, by omega, by omega, by rw [← h2]; rfl, h1⟩

/-- Eight columns in a row are eight different columns. -/
theorem BitCovers.fresh {b : Byte} {x0 n : Nat} (hn : n < 8) : ¬ BitCovers b x0 n (wrapX (x0 + (7 - n))) := by
  rintro ⟨bit, h1, h2, h3, -⟩
  have : (wrapX (x0 + (7 - n))).val = (x0 + (7 - n)) % 64 := rfl
  omega

/-- The bits of one byte on one row. -/
theorem drawBits_law (b : Byte) (x0 n : Nat) (hn : n ≤ 8) (d : Drawn (BitVec 64)) :
    (∀ px : Fin 64, (BitCovers b x0 n px → (drawBits b x0 n d).pixels.getLsbD px = !d.pixels.getLsbD px) ∧
      (¬ BitCovers b x0 n px → (drawBits b x0 n d).pixels.getLsbD px = d.pixels.getLsbD px)) ∧
    ((drawBits b x0 n d).hit = true ↔ d.hit = true ∨ ∃ px, BitCovers b x0 n px ∧ d.pixels.getLsbD px = true) := by
  induction n generalizing d with
  | zero =>
    have hno : ∀ px, ¬ BitCovers b x0 0 px := by
      rintro px ⟨bit, h1, h2, -⟩; omega
    refine ⟨fun px => ⟨fun h => absurd h (hno px), fun _ => rfl⟩, .inl, ?_⟩
    rintro (h | ⟨px, h, -⟩)
    · exact h
    · exact absurd h (hno px)
  | succ n ih =>
    rw [drawBits]
    have hsplit := BitCovers.succ_iff (b := b) (x0 := x0) (n := n) (by omega)
    have hfresh := BitCovers.fresh (b := b) (x0 := x0) (n := n) (by omega)
    generalize spriteBit b (7 - n) = on at hsplit ⊢
    generalize wrapX (x0 + (7 - n)) = w at hsplit hfresh ⊢
    obtain ⟨ih1, ih2⟩ := ih (by omega) (drawBit on w d)
    refine ⟨fun px => ?_, ?_⟩
    · by_cases hw : w = px
      · subst hw
        rw [(ih1 w).2 hfresh, drawBit_pixel, hsplit]
        cases on <;> simp [hfresh]
      · have hd : (drawBit on w d).pixels.getLsbD px = d.pixels.getLsbD px := by rw [drawBit_pixel]; simp [hw]
        rw [hsplit, ← hd]
        simp only [hw, and_false, or_false]
        exact ih1 px
    · rw [ih2, drawBit_hit, Bool.or_eq_true, Bool.and_eq_true]
      constructor
      · rintro ((h | ⟨h1, h2⟩) | ⟨px, h1, h2⟩)
        · exact .inl h
        · exact .inr ⟨w, (hsplit w).2 (.inr ⟨h1, rfl⟩), h2⟩
        · have hne : w ≠ px := fun e => hfresh (e ▸ h1)
          rw [drawBit_pixel] at h2
          exact .inr ⟨px, (hsplit px).2 (.inl h1), by simpa [hne] using h2⟩
      · rintro (h | ⟨px, h1, h2⟩)
        · exact .inl (.inl h)
        · rcases (hsplit px).1 h1 with h | ⟨h, rfl⟩
          · have hne : w ≠ px := fun e => hfresh (e ▸ h)
            exact .inr ⟨px, h, by rw [drawBit_pixel]; simpa [hne] using h2⟩
          · exact .inl (.inr ⟨h, h2⟩)

theorem BytesCover.cons_iff (b : Byte) (bs : List Byte) (x0 y0 : Nat) (px : Fin 64) (py : Fin 32) :
    BytesCover (b :: bs) x0 y0 px py ↔ BytesCover bs x0 (y0 + 1) px py ∨ (wrapY y0 = py ∧ BitCovers b x0 8 px) := by
  constructor
  · rintro ⟨row, bit, h, h1, h2, h3, h4⟩
    cases row with
    | zero => exact .inr ⟨Fin.ext h3.symm, bit, by omega, h1, h2, h4⟩
    | succ r => exact .inl ⟨r, bit, by simpa using h, h1, h2, by omega, h4⟩
  · rintro (⟨row, bit, h, h1, h2, h3, h4⟩ | ⟨hy, bit, h0, h1, h2, h4⟩)
    · exact ⟨row + 1, bit, by simpa using h, h1, h2, by omega, h4⟩
    · exact ⟨0, bit, by simp, h1, h2, by rw [← hy]; rfl, h4⟩

/-- Up to 32 rows in a row are different rows. -/
theorem BytesCover.fresh {bs : List Byte} {x0 y0 : Nat} (hl : bs.length < 32) (px : Fin 64) :
    ¬ BytesCover bs x0 (y0 + 1) px (wrapY y0) := by
  rintro ⟨row, bit, h, -, -, h3, -⟩
  have : (wrapY y0).val = y0 % 32 := rfl
  omega

/-- The whole sprite on the whole framebuffer (R202): covered pixels are toggled, no other pixel changes, and a hit is
reported exactly when a covered pixel was on. -/
theorem drawRows_law (bs : List Byte) (x0 y0 : Nat) (hl : bs.length ≤ 32) (d : Drawn Framebuffer) :
    (∀ px py, (BytesCover bs x0 y0 px py → (drawRows x0 y0 bs d).pixels.get px py = !d.pixels.get px py) ∧
      (¬ BytesCover bs x0 y0 px py → (drawRows x0 y0 bs d).pixels.get px py = d.pixels.get px py)) ∧
    ((drawRows x0 y0 bs d).hit = true ↔
      d.hit = true ∨ ∃ px py, BytesCover bs x0 y0 px py ∧ d.pixels.get px py = true) := by
  induction bs generalizing y0 d with
  | nil =>
    have hno : ∀ px py, ¬ BytesCover [] x0 y0 px py := by
      rintro px py ⟨row, bit, h, -⟩; exact absurd h (Nat.not_lt_zero row)
    refine ⟨fun px py => ⟨fun h => absurd h (hno px py), fun _ => rfl⟩, .inl, ?_⟩
    rintro (h | ⟨px, py, h, -⟩)
    · exact h
    · exact absurd h (hno px py)
  | cons b bs ih =>
    rw [drawRows]
    rw [List.length_cons] at hl
    obtain ⟨ih1, ih2⟩ := ih (y0 + 1) (by omega) (drawByte b x0 y0 d)
    have hfresh : ∀ px, ¬ BytesCover bs x0 (y0 + 1) px (wrapY y0) := BytesCover.fresh (by omega)
    have hbits := drawBits_law b x0 8 (Nat.le_refl 8) ⟨d.pixels[wrapY y0], d.hit⟩
    refine ⟨fun px py => ?_, ?_⟩
    · rw [BytesCover.cons_iff]
      by_cases hy : wrapY y0 = py
      · subst hy
        rw [(ih1 px _).2 (hfresh px), drawByte_pixel, if_pos rfl]
        simp only [hfresh, true_and, false_or]
        exact hbits.1 px
      · have hd : (drawByte b x0 y0 d).pixels.get px py = d.pixels.get px py := by rw [drawByte_pixel, if_neg hy]
        rw [← hd]
        simp only [hy, false_and, or_false]
        exact ih1 px py
    · rw [ih2, drawByte_hit, hbits.2]
      constructor
      · rintro ((h | ⟨px, h1, h2⟩) | ⟨px, py, h1, h2⟩)
        · exact .inl h
        · exact .inr ⟨px, wrapY y0, (BytesCover.cons_iff b bs x0 y0 px _).2 (.inr ⟨rfl, h1⟩), h2⟩
        · have hne : wrapY y0 ≠ py := fun e => hfresh px (e ▸ h1)
          rw [drawByte_pixel, if_neg hne] at h2
          exact .inr ⟨px, py, (BytesCover.cons_iff b bs x0 y0 px py).2 (.inl h1), h2⟩
      · rintro (h | ⟨px, py, h1, h2⟩)
        · exact .inl (.inl h)
        · rcases (BytesCover.cons_iff b bs x0 y0 px py).1 h1 with h | ⟨rfl, h⟩
          · have hne : wrapY y0 ≠ py := fun e => hfresh px (e ▸ h)
            exact .inr ⟨px, py, h, by rw [drawByte_pixel, if_neg hne]; exact h2⟩
          · exact .inl (.inr ⟨px, h, h2⟩)

end Sys2Proof.Machine
end

