-- ==== Sys2Proof/Laws/Exec.lean ====
section
/-!
SUPPORT. The answer of every instruction, one equation per case: what exec gives, over the named updates.
-/
namespace Sys2Proof.Machine

variable (s : State)

/-! ### No-ops -/

theorem exec_sys (nnn : Addr) : exec (.sys nnn) s = .next (s.complete s.pcNext) := rfl
theorem exec_ldFVx (x : Reg) : exec (.ldFVx x) s = .next (s.complete s.pcNext) := rfl
theorem exec_ldBVx (x : Reg) : exec (.ldBVx x) s = .next (s.complete s.pcNext) := rfl

/-! ### Control transfer -/

theorem exec_jp (nnn : Addr) : exec (.jp nnn) s = .next (s.complete (target nnn)) := rfl
theorem exec_jpV0 (nnn : Addr) : exec (.jpV0 nnn) s = .next (s.complete (targetPlusV0 s nnn)) := rfl
theorem exec_seImm (x : Reg) (nn : Byte) :
    exec (.seImm x nn) s = .next (s.complete (s.pcSkip (s.reg x == nn))) := rfl
theorem exec_sneImm (x : Reg) (nn : Byte) :
    exec (.sneImm x nn) s = .next (s.complete (s.pcSkip (s.reg x != nn))) := rfl
theorem exec_seReg (x y : Reg) : exec (.seReg x y) s = .next (s.complete (s.pcSkip (s.reg x == s.reg y))) := rfl
theorem exec_sneReg (x y : Reg) : exec (.sneReg x y) s = .next (s.complete (s.pcSkip (s.reg x != s.reg y))) := rfl

/-- The state after a push at depth d. -/
theorem exec_call_ok {s : State} (nnn : Addr) (h : s.sp.val < 16) :
    exec (.call nnn) s =
      .next (State.complete { s with stack := s.stack.set s.sp.val s.pc h, sp := ⟨s.sp.val + 1, by omega⟩ }
        (target nnn)) := by
  simp only [exec, execCall, State.push?_of_lt s.pc h, completing]

theorem exec_call_full {s : State} (nnn : Addr) (h : ¬ s.sp.val < 16) :
    exec (.call nnn) s = .next (s.raise ⟨.stackOverflow, s.pc⟩) := by
  simp only [exec, execCall, State.push?_full s.pc h, raising]

theorem exec_ret_ok {s : State} (h : s.sp.val ≠ 0) :
    exec .ret s =
      .next (State.complete { s with sp := ⟨s.sp.val - 1, by omega⟩ } (s.stackAt (s.sp.val - 1) + 2#16)) := by
  simp only [exec, execRet, State.pop?_of_pos h, completing]

theorem exec_ret_empty {s : State} (h : s.sp.val = 0) :
    exec .ret s = .next (s.raise ⟨.stackUnderflow, s.pc⟩) := by
  simp only [exec, execRet, State.pop?_empty h, raising]

/-! ### Arithmetic and logic -/

theorem exec_ldImm (x : Reg) (nn : Byte) : exec (.ldImm x nn) s = .next ((s.setReg x nn).complete s.pcNext) := rfl
theorem exec_addImm (x : Reg) (nn : Byte) :
    exec (.addImm x nn) s = .next ((s.setReg x (sumByte (s.reg x) nn)).complete s.pcNext) := rfl
theorem exec_ldReg (x y : Reg) : exec (.ldReg x y) s = .next ((s.setReg x (s.reg y)).complete s.pcNext) := rfl
theorem exec_or (x y : Reg) :
    exec (.or x y) s = .next ((s.setReg x (s.reg x ||| s.reg y)).complete s.pcNext) := rfl
theorem exec_and (x y : Reg) :
    exec (.and x y) s = .next ((s.setReg x (s.reg x &&& s.reg y)).complete s.pcNext) := rfl
theorem exec_xor (x y : Reg) :
    exec (.xor x y) s = .next ((s.setReg x (s.reg x ^^^ s.reg y)).complete s.pcNext) := rfl
theorem exec_addReg (x y : Reg) :
    exec (.addReg x y) s =
      .next (((s.setReg vf (carryFlag (s.reg x) (s.reg y))).setReg x (sumByte (s.reg x) (s.reg y))).complete
        s.pcNext) := rfl
theorem exec_sub (x y : Reg) :
    exec (.sub x y) s =
      .next (((s.setReg vf (notBorrowFlag (s.reg x) (s.reg y))).setReg x (diffByte (s.reg x) (s.reg y))).complete
        s.pcNext) := rfl
theorem exec_subn (x y : Reg) :
    exec (.subn x y) s =
      .next (((s.setReg vf (notBorrowFlag (s.reg y) (s.reg x))).setReg x (diffByte (s.reg y) (s.reg x))).complete
        s.pcNext) := rfl
theorem exec_shr (x y : Reg) :
    exec (.shr x y) s =
      .next (((s.setReg vf (lowBitFlag (s.reg x))).setReg x
        (shiftedRight ((s.setReg vf (lowBitFlag (s.reg x))).reg x))).complete s.pcNext) := rfl
theorem exec_shl (x y : Reg) :
    exec (.shl x y) s =
      .next (((s.setReg vf (highBitFlag (s.reg x))).setReg x
        (shiftedLeft ((s.setReg vf (highBitFlag (s.reg x))).reg x))).complete s.pcNext) := rfl
theorem exec_rnd (x : Reg) (nn : Byte) :
    exec (.rnd x nn) s =
      .next ((s.useFree.setReg x (BitVec.ofNat 8 (Config.rngDraw s.freeCount nn).val)).complete s.pcNext) := rfl

/-- A drawn value lies in 0..NN (R173). -/
theorem rngDraw_le (n : Nat) (nn : Byte) : (BitVec.ofNat 8 (Config.rngDraw n nn).val).toNat ≤ nn.toNat := by
  have h := (Config.rngDraw n nn).isLt
  have := nn.isLt
  simp only [BitVec.toNat_ofNat]
  omega

/-! ### Index register and memory transfer -/

theorem exec_ldI (nnn : Addr) : exec (.ldI nnn) s = .next ((s.setI nnn).complete s.pcNext) := rfl
theorem exec_addIVx (x : Reg) :
    exec (.addIVx x) s =
      .next (((s.setReg vf (indexFlag s.I (s.reg x))).setI (indexResult s.I (s.reg x))).complete s.pcNext) := rfl

theorem exec_stMem_ok {s : State} (x : Reg) (h : s.I.toNat + x.val < 4096) :
    exec (.stMem x) s = .next ((s.setMem (s.M.copy s.I.toNat (s.regsUpTo x))).complete s.pcNext) := by
  have hb : s.I.toNat + (s.regsUpTo x).length ≤ Config.memSize := by
    simp only [State.regsUpTo_length, Config.memSize]; omega
  simp only [exec, execStMem, blockFault?_none h, effAddr_zero, storeBlock_eq hb, completing]

theorem exec_stMem_fault {s : State} (x : Reg) (h : ¬ s.I.toNat + x.val < 4096) :
    exec (.stMem x) s = .next (s.raise (addressFault (s.I.toNat + x.val))) := by
  simp only [exec, execStMem, blockFault?_some h, raising]

theorem exec_ldMem_ok {s : State} (x : Reg) (h : s.I.toNat + x.val < 4096) :
    exec (.ldMem x) s =
      .next ((s.setRegs ((List.range (x.val + 1)).map fun j => s.M.get (s.I.toNat + j))).complete s.pcNext) := by
  have hb : s.I.toNat + (x.val + 1) ≤ Config.memSize := by
    simp only [Config.memSize]; omega
  simp only [exec, execLdMem, blockFault?_none h, effAddr_zero, loadBlock_eq hb, completing]

theorem exec_ldMem_fault {s : State} (x : Reg) (h : ¬ s.I.toNat + x.val < 4096) :
    exec (.ldMem x) s = .next (s.raise (addressFault (s.I.toNat + x.val))) := by
  simp only [exec, execLdMem, blockFault?_some h, raising]

/-! ### Framebuffer -/

theorem exec_cls : exec .cls s = .next ((s.setFB Framebuffer.blank).complete s.pcNext) := rfl

/-- The bytes of a sprite of n rows. -/
theorem exec_drw_ok {s : State} (x y : Reg) (n : Nibble) (h : s.I.toNat + n.toNat ≤ 4096) :
    exec (.drw x y n) s =
      .next (((s.setReg vf (collisionFlag (drawRows (s.reg x).toNat (s.reg y).toNat
          ((List.range n.toNat).map fun j => s.M.get (s.I.toNat + j)) ⟨s.FB, false⟩))).setFB
        (drawRows (s.reg x).toNat (s.reg y).toNat
          ((List.range n.toNat).map fun j => s.M.get (s.I.toNat + j)) ⟨s.FB, false⟩).pixels).complete s.pcNext) := by
  have hf : spriteFault? s n = none := by
    rw [spriteFault?]
    split
    · exact blockFault?_none (by omega)
    · rfl
  have hb : s.I.toNat + n.toNat ≤ Config.memSize := by
    simp only [Config.memSize]; omega
  simp only [exec, execDrw, hf, effAddr_zero, loadBlock_eq hb, completing]

theorem exec_drw_fault {s : State} (x y : Reg) (n : Nibble) (h0 : 0 < n.toNat) (h : ¬ s.I.toNat + n.toNat ≤ 4096) :
    exec (.drw x y n) s = .next (s.raise (addressFault (s.I.toNat + (n.toNat - 1)))) := by
  have hf : spriteFault? s n = some (addressFault (s.I.toNat + (n.toNat - 1))) := by
    rw [spriteFault?, if_pos h0]
    exact blockFault?_some (by omega)
  simp only [exec, execDrw, hf, raising]

/-! ### Keys and timers -/

theorem exec_skp_ok {s : State} (x : Reg) (h : (s.reg x).toNat < 16) :
    exec (.skp x) s = .next (s.complete (s.pcSkip (s.keyState ⟨(s.reg x).toNat, h⟩ == true))) := by
  simp only [exec, execSkp, skipIfKey, keyOperand_ok h, completing]

theorem exec_sknp_ok {s : State} (x : Reg) (h : (s.reg x).toNat < 16) :
    exec (.sknp x) s = .next (s.complete (s.pcSkip (s.keyState ⟨(s.reg x).toNat, h⟩ == false))) := by
  simp only [exec, execSknp, skipIfKey, keyOperand_ok h, completing]

theorem exec_skp_fault {s : State} (x : Reg) (h : ¬ (s.reg x).toNat < 16) :
    exec (.skp x) s = .next (s.raise ⟨.invalidKeyIndex, (s.reg x).zeroExtend 16⟩) := by
  simp only [exec, execSkp, skipIfKey, keyOperand_error h, raising]

theorem exec_sknp_fault {s : State} (x : Reg) (h : ¬ (s.reg x).toNat < 16) :
    exec (.sknp x) s = .next (s.raise ⟨.invalidKeyIndex, (s.reg x).zeroExtend 16⟩) := by
  simp only [exec, execSknp, skipIfKey, keyOperand_error h, raising]

theorem exec_ldVxDt (x : Reg) : exec (.ldVxDt x) s = .next ((s.setReg x s.DT).complete s.pcNext) := rfl
theorem exec_ldDtVx (x : Reg) : exec (.ldDtVx x) s = .next ((s.setDT (s.reg x)).complete s.pcNext) := rfl
theorem exec_ldStVx (x : Reg) : exec (.ldStVx x) s = .next ((s.setST (s.reg x)).complete s.pcNext) := rfl
theorem exec_ldVxK (x : Reg) : exec (.ldVxK x) s = .next s.suspend := rfl

end Sys2Proof.Machine
end

