-- ==== Sys2Proof/Laws/Frame.lean ====
section
/-!
SUPPORT. The frames of Safety.lean for the updates that instructions are made of, once each: a proof about one
instruction cites these and says nothing more about what stays.
-/
namespace Sys2Proof.Machine

/-- Equal keys, queue, status, latch and host record make a common frame. -/
theorem CommonFrame.of_eq {s t : State} (hK : t.K = s.K) (hEQ : t.EQ = s.EQ) (hrun : t.run = s.run)
    (hstarted : t.started = s.started) (hwait : t.wait = s.wait) (hfault : t.fault = s.fault)
    (hinfo : t.faultInfo = s.faultInfo) (hIR : t.IR = s.IR) (hsched : t.schedule = s.schedule)
    (hreads : t.reads = s.reads) (hdepth : t.eqDepth = s.eqDepth) : CommonFrame s t :=
  ⟨⟨fun _ => by rw [hK], hEQ⟩, ⟨hrun, hstarted, hwait, hfault, hinfo, hIR⟩, hsched, hreads, hdepth⟩

/-- An instruction whose own effect leaves the timers alone counts each once. -/
theorem TimersCounted.complete {s u : State} (hDT : u.DT = s.DT) (hST : u.ST = s.ST) (p : Word) :
    TimersCounted s (u.complete p) := by
  rw [TimersCounted, State.complete_DT, State.complete_ST, hDT, hST]
  exact ⟨countDown_toNat _, countDown_toNat _⟩

theorem Advances.complete (u : State) (p : Word) : Advances p (u.complete p) := ⟨rfl, rfl⟩

/-- A skip's pc, for a condition given as a proposition. -/
theorem Advances.complete_skip (s : State) {c : Bool} {P : Prop} [Decidable P] (h : c = decide P) :
    Advances (if P then s.pc + 4#16 else s.pc + 2#16) (s.complete (s.pcSkip c)) := by
  subst h
  refine ⟨?_, rfl⟩
  by_cases hP : P <;> simp [State.pcSkip, hP]

/-- A completion that writes no register. -/
theorem RegisterFrame.complete (s : State) (p : Word) : RegisterFrame [] s (s.complete p) :=
  ⟨fun _ _ => rfl, rfl, ⟨rfl, fun _ => rfl⟩, fun _ => rfl, fun _ _ => rfl,
    .of_eq rfl rfl rfl rfl rfl rfl rfl rfl rfl rfl rfl⟩

/-- A completion that writes one register. -/
theorem RegisterFrame.complete_setReg (s : State) (x : Reg) (b : Byte) (p : Word) :
    RegisterFrame [x] s ((s.setReg x b).complete p) :=
  ⟨fun r h => by
      have hr : x ≠ r := fun e => h (by simp [e])
      simp [hr],
    rfl, ⟨rfl, fun _ => rfl⟩, fun _ => rfl, fun _ _ => rfl, .of_eq rfl rfl rfl rfl rfl rfl rfl rfl rfl rfl rfl⟩

/-- A completion that writes VF and one register. -/
theorem RegisterFrame.complete_setFlag_setReg (s : State) (x : Reg) (f b : Byte) (p : Word) :
    RegisterFrame [x, 15] s (((s.setReg vf f).setReg x b).complete p) :=
  ⟨fun r h => by
      have hr : x ≠ r := fun e => h (by simp [e])
      have hv : vf ≠ r := fun e => h (by simp [← e, vf])
      simp [hr, hv],
    rfl, ⟨rfl, fun _ => rfl⟩, fun _ => rfl, fun _ _ => rfl, .of_eq rfl rfl rfl rfl rfl rfl rfl rfl rfl rfl rfl⟩

/-- A completion that writes VF twice. -/
theorem RegisterFrame.complete_flag_only (s : State) (f b : Byte) (p : Word) :
    RegisterFrame [15] s (((s.setReg vf f).setReg 15 b).complete p) :=
  let h := RegisterFrame.complete_setFlag_setReg s 15 f b p
  ⟨fun r hr => h.regs r (by simpa using hr), h.index, h.stack, h.memory, h.screen, h.common⟩

end Sys2Proof.Machine
end

