-- ==== Sys2Proof/Laws/PerInstr.lean ====
section
/-!
SUPPORT. Statements per instruction. OwnRow: the word of an instruction matches the table entry that the spec gives the
instruction (spec/30_encoding.md R94), and that entry reads the same instruction back from it.
-/
namespace Sys2Proof.Laws.OwnRow

open Sys2Proof

/-- The position of an instruction in the table of R94, counted from 0. -/
def entry : Instr → Nat
  | .cls => 0
  | .ret => 1
  | .sys _ => 2
  | .jp _ => 3
  | .call _ => 4
  | .seImm _ _ => 5
  | .sneImm _ _ => 6
  | .seReg _ _ => 7
  | .ldImm _ _ => 8
  | .addImm _ _ => 9
  | .ldReg _ _ => 10
  | .or _ _ => 11
  | .and _ _ => 12
  | .xor _ _ => 13
  | .addReg _ _ => 14
  | .sub _ _ => 15
  | .shr _ _ => 16
  | .subn _ _ => 17
  | .shl _ _ => 18
  | .sneReg _ _ => 19
  | .ldI _ => 20
  | .jpV0 _ => 21
  | .rnd _ _ => 22
  | .drw _ _ _ => 23
  | .skp _ => 24
  | .sknp _ => 25
  | .ldVxDt _ => 26
  | .ldVxK _ => 27
  | .ldDtVx _ => 28
  | .ldStVx _ => 29
  | .addIVx _ => 30
  | .ldFVx _ => 31
  | .ldBVx _ => 32
  | .stMem _ => 33
  | .ldMem _ => 34

/-- The word of i matches i's own entry, which builds i from it. -/
def Statement (i : Instr) : Prop :=
  ∃ r, table[entry i]? = some r ∧ r.hits (encode i) = true ∧ r.build (encode i) = i

theorem ownRow_intro {i : Instr} {r : Row} (hr : table[entry i]? = some r)
    (hm : encode i &&& r.mask = r.pattern) (hb : r.build (encode i) = i) : Statement i :=
  ⟨r, hr, by rw [Row.hits, hm]; exact beq_self_eq_true _, hb⟩

theorem cls : Statement .cls :=
  ⟨_, rfl, rfl, rfl⟩

theorem ret : Statement .ret :=
  ⟨_, rfl, rfl, rfl⟩

theorem sys (nnn : Addr) : Statement (.sys nnn) :=
  ownRow_intro rfl (by rw [encode, encNNN_and_group]; rfl) (by simp only [encode, fieldNNN_encNNN])

theorem jp (nnn : Addr) : Statement (.jp nnn) :=
  ownRow_intro rfl (by rw [encode, encNNN_and_group]; rfl) (by simp only [encode, fieldNNN_encNNN])

theorem call (nnn : Addr) : Statement (.call nnn) :=
  ownRow_intro rfl (by rw [encode, encNNN_and_group]; rfl) (by simp only [encode, fieldNNN_encNNN])

theorem seImm (x : Reg) (nn : Byte) : Statement (.seImm x nn) :=
  ownRow_intro rfl (by rw [encode, encXNN_and_group]; rfl) (by simp only [encode, fieldX_encXNN, fieldNN_encXNN])

theorem sneImm (x : Reg) (nn : Byte) : Statement (.sneImm x nn) :=
  ownRow_intro rfl (by rw [encode, encXNN_and_group]; rfl) (by simp only [encode, fieldX_encXNN, fieldNN_encXNN])

theorem seReg (x y : Reg) : Statement (.seReg x y) :=
  ownRow_intro rfl (by rw [encode, encXYN_and_minor]; rfl) (by simp only [encode, fieldX_encXYN, fieldY_encXYN])

theorem ldImm (x : Reg) (nn : Byte) : Statement (.ldImm x nn) :=
  ownRow_intro rfl (by rw [encode, encXNN_and_group]; rfl) (by simp only [encode, fieldX_encXNN, fieldNN_encXNN])

theorem addImm (x : Reg) (nn : Byte) : Statement (.addImm x nn) :=
  ownRow_intro rfl (by rw [encode, encXNN_and_group]; rfl) (by simp only [encode, fieldX_encXNN, fieldNN_encXNN])

theorem ldReg (x y : Reg) : Statement (.ldReg x y) :=
  ownRow_intro rfl (by rw [encode, encXYN_and_minor]; rfl) (by simp only [encode, fieldX_encXYN, fieldY_encXYN])

theorem or (x y : Reg) : Statement (.or x y) :=
  ownRow_intro rfl (by rw [encode, encXYN_and_minor]; rfl) (by simp only [encode, fieldX_encXYN, fieldY_encXYN])

theorem and (x y : Reg) : Statement (.and x y) :=
  ownRow_intro rfl (by rw [encode, encXYN_and_minor]; rfl) (by simp only [encode, fieldX_encXYN, fieldY_encXYN])

theorem xor (x y : Reg) : Statement (.xor x y) :=
  ownRow_intro rfl (by rw [encode, encXYN_and_minor]; rfl) (by simp only [encode, fieldX_encXYN, fieldY_encXYN])

theorem addReg (x y : Reg) : Statement (.addReg x y) :=
  ownRow_intro rfl (by rw [encode, encXYN_and_minor]; rfl) (by simp only [encode, fieldX_encXYN, fieldY_encXYN])

theorem sub (x y : Reg) : Statement (.sub x y) :=
  ownRow_intro rfl (by rw [encode, encXYN_and_minor]; rfl) (by simp only [encode, fieldX_encXYN, fieldY_encXYN])

theorem shr (x y : Reg) : Statement (.shr x y) :=
  ownRow_intro rfl (by rw [encode, encXYN_and_minor]; rfl) (by simp only [encode, fieldX_encXYN, fieldY_encXYN])

theorem subn (x y : Reg) : Statement (.subn x y) :=
  ownRow_intro rfl (by rw [encode, encXYN_and_minor]; rfl) (by simp only [encode, fieldX_encXYN, fieldY_encXYN])

theorem shl (x y : Reg) : Statement (.shl x y) :=
  ownRow_intro rfl (by rw [encode, encXYN_and_minor]; rfl) (by simp only [encode, fieldX_encXYN, fieldY_encXYN])

theorem sneReg (x y : Reg) : Statement (.sneReg x y) :=
  ownRow_intro rfl (by rw [encode, encXYN_and_minor]; rfl) (by simp only [encode, fieldX_encXYN, fieldY_encXYN])

theorem ldI (nnn : Addr) : Statement (.ldI nnn) :=
  ownRow_intro rfl (by rw [encode, encNNN_and_group]; rfl) (by simp only [encode, fieldNNN_encNNN])

theorem jpV0 (nnn : Addr) : Statement (.jpV0 nnn) :=
  ownRow_intro rfl (by rw [encode, encNNN_and_group]; rfl) (by simp only [encode, fieldNNN_encNNN])

theorem rnd (x : Reg) (nn : Byte) : Statement (.rnd x nn) :=
  ownRow_intro rfl (by rw [encode, encXNN_and_group]; rfl) (by simp only [encode, fieldX_encXNN, fieldNN_encXNN])

theorem drw (x y : Reg) (n : Nibble) : Statement (.drw x y n) :=
  ownRow_intro rfl (by rw [encode, encXYN_and_group]; rfl) (by simp only [encode, fieldX_encXYN, fieldY_encXYN, fieldN_encXYN])

theorem skp (x : Reg) : Statement (.skp x) :=
  ownRow_intro rfl (by rw [encode, encXNN_and_minor]; rfl) (by simp only [encode, fieldX_encXNN])

theorem sknp (x : Reg) : Statement (.sknp x) :=
  ownRow_intro rfl (by rw [encode, encXNN_and_minor]; rfl) (by simp only [encode, fieldX_encXNN])

theorem ldVxDt (x : Reg) : Statement (.ldVxDt x) :=
  ownRow_intro rfl (by rw [encode, encXNN_and_minor]; rfl) (by simp only [encode, fieldX_encXNN])

theorem ldVxK (x : Reg) : Statement (.ldVxK x) :=
  ownRow_intro rfl (by rw [encode, encXNN_and_minor]; rfl) (by simp only [encode, fieldX_encXNN])

theorem ldDtVx (x : Reg) : Statement (.ldDtVx x) :=
  ownRow_intro rfl (by rw [encode, encXNN_and_minor]; rfl) (by simp only [encode, fieldX_encXNN])

theorem ldStVx (x : Reg) : Statement (.ldStVx x) :=
  ownRow_intro rfl (by rw [encode, encXNN_and_minor]; rfl) (by simp only [encode, fieldX_encXNN])

theorem addIVx (x : Reg) : Statement (.addIVx x) :=
  ownRow_intro rfl (by rw [encode, encXNN_and_minor]; rfl) (by simp only [encode, fieldX_encXNN])

theorem ldFVx (x : Reg) : Statement (.ldFVx x) :=
  ownRow_intro rfl (by rw [encode, encXNN_and_minor]; rfl) (by simp only [encode, fieldX_encXNN])

theorem ldBVx (x : Reg) : Statement (.ldBVx x) :=
  ownRow_intro rfl (by rw [encode, encXNN_and_minor]; rfl) (by simp only [encode, fieldX_encXNN])

theorem stMem (x : Reg) : Statement (.stMem x) :=
  ownRow_intro rfl (by rw [encode, encXNN_and_minor]; rfl) (by simp only [encode, fieldX_encXNN])

theorem ldMem (x : Reg) : Statement (.ldMem x) :=
  ownRow_intro rfl (by rw [encode, encXNN_and_minor]; rfl) (by simp only [encode, fieldX_encXNN])

end Sys2Proof.Laws.OwnRow
end

