-- ==== Sys2Proof/Laws/Shape.lean ====
section
/-!
SUPPORT. What an instruction can do, said once: it raises a fault, it is FX0A and suspends, or it completes from a
state that differs from the one before only where the instruction writes. Whole-machine claims go by these three.
-/
namespace Sys2Proof.Machine

/-- What a completing instruction's own effect may have written, u being the state just before `complete`. -/
structure Effect (i : Instr) (s u : State) : Prop where
  notKeyWait : ∀ x, i ≠ .ldVxK x
  wait : u.wait = s.wait
  fault : u.fault = s.fault
  faultInfo : u.faultInfo = s.faultInfo
  run : u.run = s.run
  started : u.started = s.started
  keys : u.K = s.K
  queue : u.EQ = s.EQ
  latch : u.IR = s.IR
  schedule : u.schedule = s.schedule
  reads : u.reads = s.reads
  eqDepth : u.eqDepth = s.eqDepth
  delayWritten : ∀ x, i = .ldDtVx x → u.DT = s.reg x
  delayKept : (∀ x, i ≠ .ldDtVx x) → u.DT = s.DT
  soundWritten : ∀ x, i = .ldStVx x → u.ST = s.reg x
  soundKept : (∀ x, i ≠ .ldStVx x) → u.ST = s.ST
  memoryWritten : ∀ x, i = .stMem x → s.I.toNat + x.val < 4096 ∧ u.M = s.M.copy s.I.toNat (s.regsUpTo x)
  memoryKept : (∀ x, i ≠ .stMem x) → u.M = s.M
  screenCleared : i = .cls → u.FB = Framebuffer.blank
  screenKept : (∀ x y n, i ≠ .drw x y n) → i ≠ .cls → u.FB = s.FB
  stackKept : (∀ n, i ≠ .call n) → i ≠ .ret → u.sp = s.sp ∧ u.stack = s.stack
  indexKept : (∀ n, i ≠ .ldI n) → (∀ x, i ≠ .addIVx x) → u.I = s.I
  flagKept : writesFlag i = false → xField i ≠ some 15 → u.reg 15 = s.reg 15

/-- The three ways an instruction ends. -/
inductive Ending : Instr → State → State → Prop
  /-- It raises. -/
  | raises {i : Instr} {s : State} {r : Raised} (cause : r.cause ≠ FaultCause.none) (other : ∀ x, i ≠ .ldVxK x) :
      Ending i s (s.raise r)
  /-- It is FX0A and suspends. -/
  | suspends {x : Reg} {s : State} : Ending (.ldVxK x) s s.suspend
  /-- It completes. -/
  | completes {i : Instr} {s u : State} {p : Word} (effect : Effect i s u) : Ending i s (u.complete p)

theorem exec_ending {i : Instr} {s t : State} (h : exec i s = .next t) : Ending i s t := by
  cases i
  case ldVxK x => cases h; exact .suspends
  case ret =>
    by_cases hd : s.sp.val = 0
    · rw [exec_ret_empty hd] at h; cases h; exact .raises (by simp) (by simp)
    · rw [exec_ret_ok hd] at h; cases h; refine .completes ?_; constructor <;> (simp [writesFlag, xField]; try rfl)
  case call n =>
    by_cases hd : s.sp.val < 16
    · rw [exec_call_ok n hd] at h; cases h; refine .completes ?_; constructor <;> (simp [writesFlag, xField]; try rfl)
    · rw [exec_call_full n hd] at h; cases h; exact .raises (by simp) (by simp)
  case drw x y n =>
    by_cases hd : s.I.toNat + n.toNat ≤ 4096
    · rw [exec_drw_ok x y n hd] at h; cases h; refine .completes ?_; constructor <;> simp [writesFlag, xField]
    · have := s.I.isLt
      rw [exec_drw_fault x y n (by omega) hd] at h; cases h; exact .raises (by simp [addressFault]) (by simp)
  case skp x =>
    by_cases hd : (s.reg x).toNat < 16
    · rw [exec_skp_ok x hd] at h; cases h; refine .completes ?_; constructor <;> simp [writesFlag, xField]
    · rw [exec_skp_fault x hd] at h; cases h; exact .raises (by simp) (by simp)
  case sknp x =>
    by_cases hd : (s.reg x).toNat < 16
    · rw [exec_sknp_ok x hd] at h; cases h; refine .completes ?_; constructor <;> simp [writesFlag, xField]
    · rw [exec_sknp_fault x hd] at h; cases h; exact .raises (by simp) (by simp)
  case stMem x =>
    by_cases hd : s.I.toNat + x.val < 4096
    · rw [exec_stMem_ok x hd] at h; cases h; refine .completes ?_; constructor <;> simp [writesFlag, xField, hd]
    · rw [exec_stMem_fault x hd] at h; cases h; exact .raises (by simp [addressFault]) (by simp)
  case ldMem x =>
    by_cases hd : s.I.toNat + x.val < 4096
    · rw [exec_ldMem_ok x hd] at h; cases h; refine .completes ?_
      constructor <;> simp [writesFlag, xField]
      intro hx
      have hx : x.val ≠ 15 := fun e => hx (Fin.ext e)
      have hv := x.isLt
      exact writeRegs_outside (by omega) (.inr (by simp only [List.length_map, List.length_range]; omega))
    · rw [exec_ldMem_fault x hd] at h; cases h; exact .raises (by simp [addressFault]) (by simp)
  case rnd x nn =>
    cases h; refine .completes ?_
    constructor <;> simp [writesFlag, xField, draw]
    intro h1 h2; exact absurd h2 h1
  all_goals (cases h; refine .completes ?_; constructor <;> simp [writesFlag, xField])
  all_goals (intro h1 h2; exact absurd h2 h1)

end Sys2Proof.Machine
end

