-- ==== Sys2Proof/Laws/Step.lean ====
section
/-!
SUPPORT. What a step is: the turn that is next, and the transition that turn makes, each case said once.
-/
namespace Sys2Proof.Machine

variable {s : State}

/-! ### Whose turn it is -/

theorem nextTurn_nil (h : s.schedule = []) : s.nextTurn = (.core, s) := by
  rw [State.nextTurn, h]

theorem nextTurn_cons {t : Turn} {rest : List Turn} (h : s.schedule = t :: rest) :
    s.nextTurn = (t, { s with schedule := rest }) := by
  rw [State.nextTurn, h]

/-- Taking a turn off the schedule changes the schedule alone. -/
theorem nextTurn_snd (s : State) : s.nextTurn.2 = { s with schedule := s.schedule.tail } := by
  obtain ⟨V, I, pc, sp, stack, DT, ST, K, M, FB, EQ, run, started, wait, fault, info, IR, phase, depth, schedule, reads,
    n⟩ := s
  cases schedule <;> rfl

theorem step_core (h : s.nextTurn.1 = .core) : step s = coreTurn s.nextTurn.2 := by
  simp only [step, transition]
  generalize s.nextTurn = p at h
  obtain ⟨t, u⟩ := p
  subst h; rfl

theorem step_coreWithRead (h : s.nextTurn.1 = .coreWithRead) : step s = coreTurnWithRead s.nextTurn.2 := by
  simp only [step, transition]
  generalize s.nextTurn = p at h
  obtain ⟨t, u⟩ := p
  subst h; rfl

theorem step_host {m : HostMove} (h : s.nextTurn.1 = .host m) : step s = hostTurn m s.nextTurn.2 := by
  simp only [step, transition]
  generalize s.nextTurn = p at h
  obtain ⟨t, u⟩ := p
  subst h; rfl

/-- A step is a core transition, a core transition with an overlapping read, or a host move, on the state whose
schedule is one turn shorter. -/
theorem step_cases (s : State) :
    (s.nextTurn.1 = .core ∧ step s = coreTurn s.nextTurn.2) ∨
    (s.nextTurn.1 = .coreWithRead ∧ step s = coreTurnWithRead s.nextTurn.2) ∨
    (∃ m, s.nextTurn.1 = .host m ∧ step s = hostTurn m s.nextTurn.2) := by
  cases h : s.nextTurn.1 with
  | core => exact .inl ⟨rfl, step_core h⟩
  | coreWithRead => exact .inr (.inl ⟨rfl, step_coreWithRead h⟩)
  | host m => exact .inr (.inr ⟨m, rfl, step_host h⟩)

/-! ### Runs, and the events of a schedule -/

@[simp] theorem runFor_zero (s : State) : runFor 0 s = .next s := rfl

/-- A run of n + 1 steps whose first step has a successor. -/
theorem runFor_succ {s t : State} (n : Nat) (h : step s = .next t) : runFor (n + 1) s = runFor n t := by
  simp only [runFor, h]

@[simp] theorem events_core (us : List Turn) :
    (Turn.core :: us).filterMap Turn.event? = us.filterMap Turn.event? := rfl

@[simp] theorem events_enqueue (k : Key) (d : Bool) (us : List Turn) :
    (Turn.host (.enqueue k d) :: us).filterMap Turn.event? = ⟨k, d⟩ :: us.filterMap Turn.event? := rfl

/-! ### The core's transition -/

theorem coreRuns_iff : s.coreRuns = true ↔ s.run = true ∧ s.fault = .none := by
  simp only [State.coreRuns, Bool.and_eq_true, beq_iff_eq]

theorem coreTurn_halted (h : s.coreRuns = false) : coreTurn s = .next s := by
  simp only [coreTurn, h, Bool.false_eq_true, if_false]

theorem coreTurn_wait (hr : s.coreRuns = true) (hw : s.wait = true) : coreTurn s = coreWait s := by
  simp only [coreTurn, hr, hw, if_true]

theorem coreTurn_drain (hr : s.coreRuns = true) (hw : s.wait = false) (hp : s.phase = .drain) :
    coreTurn s = .next (coreDrain s) := by
  simp only [coreTurn, hr, hw, if_true, Bool.false_eq_true, if_false, hp]

theorem coreTurn_exec (hr : s.coreRuns = true) (hw : s.wait = false) (hp : s.phase = .exec) :
    coreTurn s = coreExec s := by
  simp only [coreTurn, hr, hw, if_true, Bool.false_eq_true, if_false, hp]

theorem coreWait_ends {k : Key} (h : oldestDown s.EQ = some k) : coreWait s = .next (waitComplete k s) := by
  simp only [coreWait, h]

theorem coreWait_stays (h : oldestDown s.EQ = none) : coreWait s = .next s := by
  simp only [coreWait, h]

theorem fetch_ok (h : s.pc.toNat ≤ 0x0FFE) :
    fetch s = .ok (joinBytes (s.M.get s.pc.toNat) (s.M.get (s.pc.toNat + 1))) :=
  memRead2_eq (by simp only [Config.memSize]; omega)

theorem fetch_error (h : ¬ s.pc.toNat ≤ 0x0FFE) : fetch s = .error (addressFault s.pc.toNat) := by
  exact if_pos (by simp only [Config.lastAddr]; omega)

theorem coreExec_fetch_error {r : Raised} (h : fetch s = .error r) : coreExec s = .next (s.raise r) := by
  simp only [coreExec, h, raising]

theorem coreExec_decode_error {op : Word} {e : DecodeReject} (h : fetch s = .ok op) (hd : decode op = .error e) :
    coreExec s = .next ((s.latch op).raise ⟨.decodeError, op⟩) := by
  simp only [coreExec, h, hd, raising]

theorem coreExec_ok {op : Word} {i : Instr} (h : fetch s = .ok op) (hd : decode op = .ok i) :
    coreExec s = exec i (s.latch op) := by
  simp only [coreExec, h, hd]

/-- Every way a core transition can go. -/
theorem coreTurn_cases (s : State) :
    (s.coreRuns = false ∧ coreTurn s = .next s) ∨
    (s.coreRuns = true ∧ s.wait = true ∧ oldestDown s.EQ = none ∧ coreTurn s = .next s) ∨
    (∃ k, s.coreRuns = true ∧ s.wait = true ∧ oldestDown s.EQ = some k ∧ coreTurn s = .next (waitComplete k s)) ∨
    (s.coreRuns = true ∧ s.wait = false ∧ s.phase = .drain ∧ coreTurn s = .next (coreDrain s)) ∨
    (∃ r, s.coreRuns = true ∧ s.wait = false ∧ s.phase = .exec ∧ fetch s = .error r ∧ coreTurn s = .next (s.raise r)) ∨
    (∃ op e, s.coreRuns = true ∧ s.wait = false ∧ s.phase = .exec ∧ fetch s = .ok op ∧ decode op = .error e ∧
      coreTurn s = .next ((s.latch op).raise ⟨.decodeError, op⟩)) ∨
    (∃ op i, s.coreRuns = true ∧ s.wait = false ∧ s.phase = .exec ∧ fetch s = .ok op ∧ decode op = .ok i ∧
      coreTurn s = exec i (s.latch op)) := by
  cases hr : s.coreRuns with
  | false => exact .inl ⟨rfl, coreTurn_halted hr⟩
  | true =>
    refine .inr ?_
    cases hw : s.wait with
    | true =>
      cases hk : oldestDown s.EQ with
      | none => exact .inl ⟨rfl, rfl, rfl, by rw [coreTurn_wait hr hw, coreWait_stays hk]⟩
      | some k => exact .inr (.inl ⟨k, rfl, rfl, rfl, by rw [coreTurn_wait hr hw, coreWait_ends hk]⟩)
    | false =>
      refine .inr (.inr ?_)
      cases hp : s.phase with
      | drain => exact .inl ⟨rfl, rfl, rfl, coreTurn_drain hr hw hp⟩
      | exec =>
        refine .inr ?_
        cases hf : fetch s with
        | error r =>
          exact .inl ⟨r, rfl, rfl, rfl, rfl, by rw [coreTurn_exec hr hw hp, coreExec_fetch_error hf]⟩
        | ok op =>
          refine .inr ?_
          cases hd : decode op with
          | error e =>
            exact .inl ⟨op, e, rfl, rfl, rfl, rfl, hd, by rw [coreTurn_exec hr hw hp, coreExec_decode_error hf hd]⟩
          | ok i =>
            exact .inr ⟨op, i, rfl, rfl, rfl, rfl, hd, by rw [coreTurn_exec hr hw hp, coreExec_ok hf hd]⟩

/-! ### Decoding -/

/-- A rejected opcode is rejected as a DecodeError of that opcode. -/
theorem decode_error {op : Word} {e : DecodeReject} (h : decode op = .error e) : e = .decodeError op := by
  unfold decode at h
  split at h
  · exact absurd h (by simp)
  · exact (Except.error.inj h).symm

/-- A decoded opcode matches an entry of the table, which builds the instruction. -/
theorem decode_ok {op : Word} {i : Instr} (h : decode op = .ok i) :
    ∃ r ∈ table, r.hits op = true ∧ i = r.build op := by
  unfold decode at h
  split at h
  · rename_i r hr
    exact ⟨r, List.mem_of_find?_eq_some hr, by simpa using List.find?_some hr, (Except.ok.inj h).symm⟩
  · exact absurd h (by simp)

/-! ### Host moves -/

theorem hostLoadROM_ok {bytes : List Byte} (hs : s.started = false) (hl : bytes.length ≤ 3584) :
    hostLoadROM bytes s = .next (s.setMem (s.M.copy 0x200 bytes)) := by
  have : ¬ Config.romMax < bytes.length := by simp only [Config.romMax]; omega
  simp only [hostLoadROM, hs, Bool.false_eq_true, if_false, this, Config.progBase]

theorem hostStart_ok (hs : s.started = false) (hf : s.fault = .none) :
    hostStart s = .next { s with run := true, started := true } := by
  simp [hostStart, hs, hf]

/-- There is room exactly when the capacity, if there is one, is not reached. -/
theorem queueHasRoom_iff : s.queueHasRoom = true ↔ ∀ d, s.eqDepth = some d → s.EQ.length < d := by
  cases h : s.eqDepth <;> simp [State.queueHasRoom, h]

/-- HostEnqueue into a queue with room. -/
theorem hostEnqueue_ok (k : Key) (down : Bool) (h : ∀ d, s.eqDepth = some d → s.EQ.length < d) :
    hostEnqueue k down s = .next { s with EQ := s.EQ ++ [⟨k, down⟩] } := by
  rw [hostEnqueue, if_pos (queueHasRoom_iff.mpr h)]

/-- HostEnqueue into a full queue. -/
theorem hostEnqueue_full (k : Key) (down : Bool) {d : Nat} (hd : s.eqDepth = some d) (h : d ≤ s.EQ.length) :
    hostEnqueue k down s = .refused .queueFull := by
  rw [hostEnqueue, if_neg]
  intro hr
  have := queueHasRoom_iff.mp hr d hd
  omega

/-- HostStop outside a key wait. -/
theorem hostStop_idle (h : (s.run && s.wait) = false) : hostStop s = { s with run := false } := by
  simp only [hostStop, h, Bool.false_eq_true, if_false]

/-- HostStop during a key wait: abandoned, or completed with some key (R257). -/
theorem hostStop_waiting (h : (s.run && s.wait) = true) :
    hostStop s = { s.useFree with run := false, wait := false } ∨
    ∃ k, hostStop s = { (s.endWait k).useFree with run := false } := by
  simp only [hostStop, h, if_true, stopWaiting]
  cases Config.stopDuringWait s.freeCount with
  | none => exact .inl rfl
  | some k => exact .inr ⟨k, rfl⟩

end Sys2Proof.Machine
end

