-- ==== Sys2Proof/Tests/Slice0.lean ====
section
/-!
SUPPORT. Tests on fixed values, and witnesses. Expected values come from spec/95_test_vectors.md (the section or the
vector is named in each docstring) or, for words, from the encodings of spec/30_encoding.md R94. A witness shows that
the hypotheses of an obligation can be met together, clause by clause, at the ends of their ranges.
-/
namespace Sys2Proof.Tests

open Sys2Proof Sys2Proof.Machine

/-! ### Helpers -/

/-- The reset state started, with CoreExec next. -/
def base : State := { State.reset with run := true, started := true, phase := .exec }

/-- The decoder reads that instruction. -/
def decodes (op : Word) (i : Instr) : Bool :=
  match decode op with
  | .ok j => j == i
  | .error _ => false

/-- The decoder rejects the opcode as a DecodeError of it. -/
def rejects (op : Word) : Bool :=
  match decode op with
  | .ok _ => false
  | .error e => e == .decodeError op

/-- V[x] = b in s. -/
def V (x : Reg) (b : Byte) (s : State) : State := s.setReg x b

/-- One step of s answers a next state of which p holds. -/
def after (s : State) (p : State → Bool) : Bool :=
  match step s with
  | .next t => p t
  | _ => false

/-- The core halted with that cause and value, its pc being that. -/
def halted (c : FaultCause) (info pc : Word) (t : State) : Bool :=
  t.fault == c && t.faultInfo == info && t.run == false && t.pc == pc

/-! ### Well-formedness: the one check, and the terms it refuses -/

/-- R95: 0x00E0 is CLS, so `SYS 0x0E0` is not an instruction. -/
theorem test_wf_refuses_sys_0E0 : ¬ (Instr.sys 0x0E0#12).WellFormed := by decide

/-- R95: 0x00EE is RET, so `SYS 0x0EE` is not an instruction. -/
theorem test_wf_refuses_sys_0EE : ¬ (Instr.sys 0x0EE#12).WellFormed := by decide

/-- R129: the words beside the two are SYS. -/
theorem test_wf_accepts_sys_neighbours : (Instr.sys 0x0E1#12).WellFormed ∧ (Instr.sys 0x0EF#12).WellFormed ∧ (Instr.sys 0x000#12).WellFormed := by decide

/-! ### Decoding: one word of every constructor, written out from R94 -/

/-- R94, one word per entry. -/
theorem test_decode_leading_nibbles_0_to_5 : decodes 0x00E0#16 (.cls) ∧
    decodes 0x00EE#16 (.ret) ∧
    decodes 0x0FFF#16 (.sys 0xFFF#12) ∧
    decodes 0x1234#16 (.jp 0x234#12) ∧
    decodes 0x2210#16 (.call 0x210#12) ∧
    decodes 0x3AFF#16 (.seImm 10 0xFF#8) ∧
    decodes 0x4310#16 (.sneImm 3 0x10#8) ∧
    decodes 0x5AB0#16 (.seReg 10 11) := by decide

/-- R94, one word per entry. -/
theorem test_decode_leading_nibbles_6_to_8 : decodes 0x63AB#16 (.ldImm 3 0xAB#8) ∧
    decodes 0x7105#16 (.addImm 1 0x05#8) ∧
    decodes 0x8120#16 (.ldReg 1 2) ∧
    decodes 0x8121#16 (.or 1 2) ∧
    decodes 0x8122#16 (.and 1 2) ∧
    decodes 0x8123#16 (.xor 1 2) ∧
    decodes 0x8124#16 (.addReg 1 2) ∧
    decodes 0x8125#16 (.sub 1 2) ∧
    decodes 0x8126#16 (.shr 1 2) ∧
    decodes 0x8127#16 (.subn 1 2) ∧
    decodes 0x812E#16 (.shl 1 2) := by decide

/-- R94, one word per entry. -/
theorem test_decode_leading_nibbles_9_to_E : decodes 0x9AB0#16 (.sneReg 10 11) ∧
    decodes 0xA2F0#16 (.ldI 0x2F0#12) ∧
    decodes 0xB2FF#16 (.jpV0 0x2FF#12) ∧
    decodes 0xC30F#16 (.rnd 3 0x0F#8) ∧
    decodes 0xD01F#16 (.drw 0 1 0xF#4) ∧
    decodes 0xE49E#16 (.skp 4) ∧
    decodes 0xE4A1#16 (.sknp 4) := by decide

/-- R94, one word per entry. -/
theorem test_decode_leading_nibble_F : decodes 0xF307#16 (.ldVxDt 3) ∧
    decodes 0xF30A#16 (.ldVxK 3) ∧
    decodes 0xF215#16 (.ldDtVx 2) ∧
    decodes 0xF218#16 (.ldStVx 2) ∧
    decodes 0xF21E#16 (.addIVx 2) ∧
    decodes 0xF529#16 (.ldFVx 5) ∧
    decodes 0xF533#16 (.ldBVx 5) ∧
    decodes 0xF155#16 (.stMem 1) ∧
    decodes 0xF165#16 (.ldMem 1) := by decide

/-- Vectors of section 2.1: DecodeError. -/
theorem test_decode_rejects : rejects 0x5011#16 ∧
    rejects 0x8AB8#16 ∧
    rejects 0x8ABD#16 ∧
    rejects 0x8ABF#16 ∧
    rejects 0x9ABF#16 ∧
    rejects 0xE000#16 ∧
    rejects 0xE19F#16 ∧
    rejects 0xF000#16 ∧
    rejects 0xF11F#16 ∧
    rejects 0xF075#16 ∧
    rejects 0xFFFF#16 := by decide

/-- R64, R94: a table word and an illegal one. -/
theorem test_decodeTableWord : decodeTableWord 16 0xA2F0 = some (.ldI 0x2F0#12) ∧ decodeTableWord 16 0x5011 = none := by decide

/-- R64: the first byte is the high one, and one byte is no instruction. -/
theorem test_decodeBytes_order : decodeBytes [0xA2#8, 0xF0#8, 0x11#8] = .ok (.ldI 0x2F0#12, [0x11#8]) ∧ decodeBytes [0xA2#8] = .error .truncated := ⟨rfl, rfl⟩

/-! ### Fetch and step order (section 2.2) -/

/-- Odd pc: executes normally (D7). -/
theorem test_step_odd_pc : after (State.armed ({ base with pc := 0x201#16 }) 0x6107#16) (fun t =>
    t.reg 1 == 0x07#8 && t.pc == 0x203#16) = true := by decide

/-- pc = 0x0FFE. -/
theorem test_step_top_of_memory : after (State.armed ({ base with pc := 0xFFE#16 }) 0x6001#16) (fun t =>
    t.reg 0 == 0x01#8 && t.pc == 0x1000#16) = true := by decide

/-- pc = 0x1000 halts (D4). -/
theorem test_step_pc_above_memory : after { base with pc := 0x1000#16 } (halted .addressFault 0x1000#16 0x1000#16) = true := by decide

/-- pc = 0x0FFF: no wrap. -/
theorem test_step_second_byte_outside : after { base with pc := 0x0FFF#16 } (halted .addressFault 0x0FFF#16 0x0FFF#16) = true := by decide

/-- DecodeError: DT does not count, IR holds the opcode (P6, R127). -/
theorem test_step_illegal_opcode : after (State.armed ({ base with DT := 7#8 }) 0x5011#16) (fun t =>
    halted .decodeError 0x5011#16 0x200#16 t && t.DT == 7#8 && t.IR == 0x5011#16) = true := by decide

/-- Section 2.9: the events of one queue in order. -/
theorem test_step_drain_applies_in_order : after { base with phase := .drain, EQ := [⟨2, true⟩, ⟨2, false⟩, ⟨5, true⟩] } (fun t =>
    t.K[2] == false && t.K[5] == true && t.EQ == [] && t.phase == .exec) = true := by decide

/-! ### Control transfer (section 2.3) -/

/-- The vector of the section. -/
theorem test_jp : after (State.armed base 0x1001#16) (fun t =>
    t.pc == 0x001#16) = true := by decide

/-- P2: the loop on itself counts. -/
theorem test_jp_counts_timer : after (State.armed ({ base with DT := 2#8 }) 0x1200#16) (fun t =>
    t.pc == 0x200#16 && t.DT == 1#8) = true := by decide

/-- The sum is not reduced. -/
theorem test_jp_v0_beyond_memory : after (State.armed (V 0 0xFF#8 base) 0xBFFF#16) (fun t =>
    t.pc == 0x10FE#16) = true := by decide

/-- The X nibble plays no part. -/
theorem test_jp_v0_uses_v0 : after (State.armed (V 2 0x55#8 (V 0 0x01#8 base)) 0xB2FF#16) (fun t =>
    t.pc == 0x300#16) = true := by decide

/-- S6. -/
theorem test_call : after (State.armed ({ base with pc := 0x206#16 }) 0x2210#16) (fun t =>
    t.stack[0] == 0x0206#16 && t.sp.val == 1 && t.pc == 0x210#16) = true := by decide

/-- S6, P5: StackOverflow. -/
theorem test_call_seventeenth : after (State.armed ({ base with pc := 0x206#16, sp := 16 }) 0x2210#16) (fun t =>
    halted .stackOverflow 0x0206#16 0x206#16 t && t.sp.val == 16 && t.stack[15] == 0x0000#16) = true := by decide

/-- S6: to the CALL plus 2; the entry stays. -/
theorem test_ret : after (State.armed ({ base with pc := 0x212#16, sp := 1, stack := base.stack.set 0 0x0206#16 }) 0x00EE#16) (fun t =>
    t.sp.val == 0 && t.pc == 0x208#16 && t.stack[0] == 0x0206#16) = true := by decide

/-- S6: StackUnderflow. -/
theorem test_ret_empty : after (State.armed ({ base with pc := 0x212#16 }) 0x00EE#16) (fun t =>
    halted .stackUnderflow 0x0212#16 0x212#16 t) = true := by decide

/-- The vector of the section. -/
theorem test_se_imm_taken : after (State.armed ({ (V 10 0xFF#8 base) with pc := 0xFFC#16 }) 0x3AFF#16) (fun t =>
    t.pc == 0x1000#16) = true := by decide

/-- The vector of the section. -/
theorem test_se_imm_not_taken : after (State.armed ({ (V 0 0x01#8 base) with pc := 0x208#16 }) 0x3000#16) (fun t =>
    t.pc == 0x20A#16) = true := by decide

/-- The vector of the section. -/
theorem test_sne_imm_taken : after (State.armed (V 3 0x10#8 base) 0x4311#16) (fun t =>
    t.pc == 0x204#16) = true := by decide

/-- The vector of the section. -/
theorem test_sne_imm_not_taken : after (State.armed (V 3 0x10#8 base) 0x4310#16) (fun t =>
    t.pc == 0x202#16) = true := by decide

/-- The vector of the section. -/
theorem test_se_reg_taken : after (State.armed ({ (V 2 7#8 (V 1 7#8 base)) with pc := 0x300#16 }) 0x5120#16) (fun t =>
    t.pc == 0x304#16) = true := by decide

/-- The vector of the section. -/
theorem test_se_reg_not_taken : after (State.armed ({ (V 2 8#8 (V 1 7#8 base)) with pc := 0x300#16 }) 0x5120#16) (fun t =>
    t.pc == 0x302#16) = true := by decide

/-- The vector of the section. -/
theorem test_sne_reg_taken : after (State.armed ({ (V 2 8#8 (V 1 7#8 base)) with pc := 0x300#16 }) 0x9120#16) (fun t =>
    t.pc == 0x304#16) = true := by decide

/-- The vector of the section. -/
theorem test_sne_reg_not_taken : after (State.armed ({ (V 2 7#8 (V 1 7#8 base)) with pc := 0x300#16 }) 0x9120#16) (fun t =>
    t.pc == 0x302#16) = true := by decide

/-! ### Arithmetic and logic (section 2.4) -/

/-- The vector of the section. -/
theorem test_ld_imm_flag_register : after (State.armed base 0x6F07#16) (fun t =>
    t.reg 15 == 0x07#8 && t.pc == 0x202#16) = true := by decide

/-- The vector of the section. -/
theorem test_add_imm_wraps_without_flag : after (State.armed (V 15 0x5A#8 (V 0 0x05#8 base)) 0x70FF#16) (fun t =>
    t.reg 0 == 0x04#8 && t.reg 15 == 0x5A#8) = true := by decide

/-- The vector of the section. -/
theorem test_add_imm_flag_register : after (State.armed (V 15 0xFF#8 base) 0x7F01#16) (fun t =>
    t.reg 15 == 0x00#8) = true := by decide

/-- The vector of the section. -/
theorem test_ld_reg : after (State.armed (V 2 0x9C#8 (V 1 0x01#8 base)) 0x8120#16) (fun t =>
    t.reg 1 == 0x9C#8 && t.reg 2 == 0x9C#8) = true := by decide

/-- The vector of the section. -/
theorem test_or_leaves_flag : after (State.armed (V 15 0x77#8 (V 2 0x3C#8 (V 1 0xF0#8 base))) 0x8121#16) (fun t =>
    t.reg 1 == 0xFC#8 && t.reg 15 == 0x77#8) = true := by decide

/-- The vector of the section. -/
theorem test_and : after (State.armed (V 2 0x3C#8 (V 1 0xF0#8 base)) 0x8122#16) (fun t =>
    t.reg 1 == 0x30#8) = true := by decide

/-- The vector of the section. -/
theorem test_xor : after (State.armed (V 2 0x3C#8 (V 1 0xF0#8 base)) 0x8123#16) (fun t =>
    t.reg 1 == 0xCC#8) = true := by decide

/-- The vector of the section. -/
theorem test_xor_same_register : after (State.armed (V 1 0xA7#8 base) 0x8113#16) (fun t =>
    t.reg 1 == 0x00#8) = true := by decide

/-- S2. -/
theorem test_add_reg_carry : after (State.armed (V 2 0x02#8 (V 1 0xFF#8 base)) 0x8124#16) (fun t =>
    t.reg 1 == 0x01#8 && t.reg 2 == 0x02#8 && t.reg 15 == 0x01#8) = true := by decide

/-- D9. -/
theorem test_add_reg_into_flag : after (State.armed (V 1 0x02#8 (V 15 0xFF#8 base)) 0x8F14#16) (fun t =>
    t.reg 15 == 0x01#8 && t.reg 1 == 0x02#8) = true := by decide

/-- S3. -/
theorem test_sub_borrow : after (State.armed (V 2 0x02#8 (V 1 0x01#8 base)) 0x8125#16) (fun t =>
    t.reg 1 == 0xFF#8 && t.reg 15 == 0x00#8) = true := by decide

/-- No borrow. -/
theorem test_sub_equal : after (State.armed (V 2 0x05#8 (V 1 0x05#8 base)) 0x8125#16) (fun t =>
    t.reg 1 == 0x00#8 && t.reg 15 == 0x01#8) = true := by decide

/-- S4: Y is ignored. -/
theorem test_shr : after (State.armed (V 2 0xEE#8 (V 1 0x05#8 base)) 0x8126#16) (fun t =>
    t.reg 1 == 0x02#8 && t.reg 15 == 0x01#8 && t.reg 2 == 0xEE#8) = true := by decide

/-- D9. -/
theorem test_shr_flag_register : after (State.armed (V 15 0x03#8 base) 0x8F06#16) (fun t =>
    t.reg 15 == 0x00#8) = true := by decide

/-- The vector of the section. -/
theorem test_subn_borrow : after (State.armed (V 2 0x01#8 (V 1 0x02#8 base)) 0x8127#16) (fun t =>
    t.reg 1 == 0xFF#8 && t.reg 15 == 0x00#8) = true := by decide

/-- The vector of the section. -/
theorem test_subn : after (State.armed (V 2 0x02#8 (V 1 0x01#8 base)) 0x8127#16) (fun t =>
    t.reg 1 == 0x01#8 && t.reg 15 == 0x01#8) = true := by decide

/-- The vector of the section. -/
theorem test_shl : after (State.armed (V 1 0x81#8 base) 0x810E#16) (fun t =>
    t.reg 1 == 0x02#8 && t.reg 15 == 0x01#8) = true := by decide

/-- D9. -/
theorem test_shl_flag_register : after (State.armed (V 15 0x80#8 base) 0x8F0E#16) (fun t =>
    t.reg 15 == 0x02#8) = true := by decide

/-- 0xC30F: some value 0..0x0F, VF unchanged (R173). -/
theorem test_rnd_within_bound : ∃ t, step (State.armed (V 15 0x33#8 base) 0xC30F#16) = .next t ∧
    (t.reg 3).toNat ≤ 0x0F ∧ t.reg 15 = 0x33#8 ∧ t.pc = 0x202#16 := ⟨_, rfl, rngDraw_le 0 0x0F#8, rfl, rfl⟩

/-! ### Index register and memory transfer (section 2.5) -/

/-- The vector of the section. -/
theorem test_ld_i : after (State.armed base 0xAFFF#16) (fun t =>
    t.I == 0xFFF#12 && t.pc == 0x202#16) = true := by decide

/-- The modulus is 0xFFF: sum 0xFFF gives 0, VF cleared (D10). -/
theorem test_add_i_sum_FFF : after (State.armed ({ (V 15 0x01#8 (V 2 0x01#8 base)) with I := 0xFFE#12 }) 0xF21E#16) (fun t =>
    t.I == 0x000#12 && t.reg 15 == 0x00#8) = true := by decide

/-- The old VF is the addend. -/
theorem test_add_i_flag_register : after (State.armed ({ (V 15 0x01#8 base) with I := 0xFFF#12 }) 0xFF1E#16) (fun t =>
    t.I == 0x001#12 && t.reg 15 == 0x01#8) = true := by decide

/-- The vector of the section. -/
theorem test_st_mem : after (State.armed ({ (V 2 0xEF#8 (V 1 0xCD#8 (V 0 0xAB#8 base))) with I := 0x300#12 }) 0xF155#16) (fun t =>
    t.M.get 0x300 == 0xAB#8 && t.M.get 0x301 == 0xCD#8 && t.M.get 0x302 == 0x00#8 && t.I == 0x300#12) = true := by decide

/-- Nothing is written. -/
theorem test_st_mem_fault : after (State.armed ({ (V 0 0x5A#8 base) with I := 0xFF1#12 }) 0xFF55#16) (fun t =>
    halted .addressFault 0x1000#16 0x200#16 t && t.M.get 0xFF1 == 0x00#8) = true := by decide

/-- The vector of the section. -/
theorem test_ld_mem : after (State.armed (V 2 0x11#8 ({ base with I := 0x300#12, M := [(0x300, 0xAB#8), (0x301, 0xCD#8), (0x302, 0xEF#8)] })) 0xF165#16) (fun t =>
    t.reg 0 == 0xAB#8 && t.reg 1 == 0xCD#8 && t.reg 2 == 0x11#8 && t.I == 0x300#12) = true := by decide

/-- No register is written. -/
theorem test_ld_mem_fault : after (State.armed ({ (V 0 0x11#8 base) with I := 0xFFF#12 }) 0xF165#16) (fun t =>
    halted .addressFault 0x1000#16 0x200#16 t && t.reg 0 == 0x11#8) = true := by decide

/-! ### Display (section 2.6); bit x of row y is pixel (x, y) -/

/-- The vector of the section. -/
theorem test_cls : after (State.armed (V 15 0x33#8 ({ base with FB := base.FB.set 5 (BitVec.twoPow 64 5) })) 0x00E0#16) (fun t =>
    t.FB == Framebuffer.blank && t.reg 15 == 0x33#8) = true := by decide

/-- Pixels 62, 63, 0..5 of row 0. -/
theorem test_drw_wraps_right : after (State.armed (V 0 0x3E#8 ({ base with I := 0x300#12, M := [(0x300, 0xFF#8)] })) 0xD011#16) (fun t =>
    t.FB == Framebuffer.blank.set 0 0xC00000000000003F#64 && t.reg 15 == 0x00#8) = true := by decide

/-- (0,0) off, (1,0) on. -/
theorem test_drw_one_collision : after (State.armed ({ base with I := 0x300#12, M := [(0x300, 0xC0#8)], FB := base.FB.set 0 1#64 }) 0xD011#16) (fun t =>
    t.FB == Framebuffer.blank.set 0 2#64 && t.reg 15 == 0x01#8) = true := by decide

/-- FB and VF unchanged. -/
theorem test_drw_fault : after (State.armed ({ (V 15 0x07#8 base) with I := 0xFFF#12, M := [(0xFFF, 0x80#8)] }) 0xD012#16) (fun t =>
    halted .addressFault 0x1000#16 0x200#16 t && t.FB == base.FB && t.reg 15 == 0x07#8) = true := by decide

/-! ### Keys and timers (section 2.7) -/

/-- 15 is the highest legal key. -/
theorem test_skp_highest_key : after (State.armed ({ (V 4 0x0F#8 base) with K := base.K.set 15 true }) 0xE49E#16) (fun t =>
    t.pc == 0x204#16) = true := by decide

/-- InvalidKeyIndex. -/
theorem test_skp_bad_key : after (State.armed (V 4 0x10#8 base) 0xE49E#16) (fun t =>
    halted .invalidKeyIndex 0x0010#16 0x200#16 t) = true := by decide

/-- The vector of the section. -/
theorem test_sknp_taken : after (State.armed ({ (V 4 0x0A#8 base) with pc := 0x220#16 }) 0xE4A1#16) (fun t =>
    t.pc == 0x224#16) = true := by decide

/-- InvalidKeyIndex. -/
theorem test_sknp_bad_key : after (State.armed (V 4 0xFF#8 base) 0xE4A1#16) (fun t =>
    halted .invalidKeyIndex 0x00FF#16 0x200#16 t) = true := by decide

/-- The vector of the section. -/
theorem test_ld_vx_dt : after (State.armed ({ base with DT := 3#8 }) 0xF307#16) (fun t =>
    t.reg 3 == 0x03#8 && t.DT == 2#8) = true := by decide

/-- Counted once in the same step (D17). -/
theorem test_ld_dt_vx : after (State.armed (V 2 0x05#8 base) 0xF215#16) (fun t =>
    t.DT == 4#8) = true := by decide

/-- The timers are independent. -/
theorem test_ld_st_vx : after (State.armed ({ (V 2 0x02#8 base) with DT := 7#8 }) 0xF218#16) (fun t =>
    t.ST == 1#8 && t.DT == 6#8) = true := by decide

/-- The queued event is lost. -/
theorem test_ld_vx_k_entry : after (State.armed ({ base with pc := 0x230#16, DT := 9#8, EQ := [⟨1, true⟩] }) 0xF30A#16) (fun t =>
    t.EQ == [] && t.wait && t.pc == 0x230#16 && t.DT == 9#8 && t.K == base.K) = true := by decide

/-- The oldest down event is (7,1). -/
theorem test_ld_vx_k_completion : after { base with wait := true, phase := .drain, IR := 0xF30A#16, pc := 0x230#16, DT := 9#8, EQ := [⟨4, false⟩, ⟨7, true⟩, ⟨2, true⟩] } (fun t =>
    t.reg 3 == 0x07#8 && t.EQ == [] && !t.wait && t.pc == 0x232#16 && t.DT == 8#8 && t.K == base.K) = true := by decide

/-! ### No-ops (section 2.8, S8) and timer floor (S9) -/

/-- The vector of the section. -/
theorem test_sys : after (State.armed ({ base with DT := 5#8, I := 0x123#12 }) 0x0123#16) (fun t =>
    t.pc == 0x202#16 && t.DT == 4#8 && t.I == 0x123#12) = true := by decide

/-- D15. -/
theorem test_ld_f_loads_no_address : after (State.armed ({ (V 5 0x0A#8 base) with I := 0x111#12 }) 0xF529#16) (fun t =>
    t.pc == 0x202#16 && t.I == 0x111#12) = true := by decide

/-- D15. -/
theorem test_ld_b_stores_nothing : after (State.armed ({ (V 5 0xFE#8 base) with I := 0x300#12 }) 0xF533#16) (fun t =>
    t.pc == 0x202#16 && t.M.get 0x300 == 0#8 && t.M.get 0x302 == 0#8) = true := by decide

/-- S9. -/
theorem test_timer_floor : after (State.armed ({ base with DT := 1#8, ST := 0#8 }) 0x6000#16) (fun t =>
    t.DT == 0#8 && t.ST == 0#8) = true := by decide

/-! ### Reset and host (section 2.9) -/

/-- From a faulted state. -/
theorem test_reset : after { base with fault := .decodeError, faultInfo := 0x5011#16, I := 9#12, M := [(0x200, 0x60#8)], EQ := [⟨1, true⟩], schedule := [.host .reset] } (fun t => t == State.reset) = true := by decide

/-- The vector of the section. -/
theorem test_load_rom : after { State.reset with schedule := [.host (.loadROM [0x60#8, 0x05#8])] } (fun t => t.M == [(0x200, 0x60#8), (0x201, 0x05#8)]) = true := by decide

/-- Not enabled (R255). -/
theorem test_start_after_stop : step { State.reset with started := true, schedule := [.host .start] } = .fault .startNotEnabled := rfl

/-- The vector of the section. -/
theorem test_stop : after { base with schedule := [.host .stop] } (fun t => !t.run && t.pc == 0x200#16) = true := by decide

/-- A full queue of capacity 1 (U6). -/
theorem test_enqueue_full : step { base with eqDepth := some 1, EQ := [⟨1, true⟩], schedule := [.host (.enqueue 2 true)] } = .refused .queueFull := rfl

/-! ### Placing an instruction -/

/-- The very next step runs the table word from reset, and it fetches big-endian (R64). -/
theorem test_withFetchWord : after (State.reset.withFetchWord 16 0xA2F0) (fun t => t.I == 0x2F0#12 && t.IR == 0xA2F0#16 && t.M == [(0x200, 0xA2#8), (0x201, 0xF0#8)]) = true := by decide

/-! ### Witnesses: the hypotheses of each obligation that has some, met together -/

/-- CoreExec is enabled in every variant of `base` that the witnesses use. -/
theorem execTurn_of {s : State} (hs : s.schedule = []) (hr : s.run = true) (hf : s.fault = .none)
    (hw : s.wait = false) (hp : s.phase = .exec) : ExecTurn s := ⟨.inl hs, hr, hf, hw, hp⟩

/-- O2. -/
theorem witness_decode_of_encode :
    (Instr.sys 0x0E1#12).WellFormed ∧ (Instr.drw 15 15 0xF#4).WellFormed :=
  by decide

/-- O3. -/
theorem witness_encode_of_decode :
    decode 0x8AB7#16 = .ok (.subn 10 11) :=
  rfl

/-- O4, O8: both clauses. -/
theorem witness_legal_opcodes :
    LegalOpcode 0x00E1#16 ∧ LegalOpcode 0x8ABE#16 ∧ LegalOpcode 0xF165#16 ∧ ¬ LegalOpcode 0x5011#16 ∧ ¬ LegalOpcode 0xF075#16 :=
  ⟨by decide, by decide, by decide, by decide, by decide⟩

/-- O5: entries at both ends of the two ranges. -/
theorem witness_table_entries :
    (∃ r q, table[2]? = some r ∧ table[34]? = some q ∧ r.hits 0x0123#16 = true ∧ q.hits 0xF165#16 = true) ∧
    (∃ r q, table[0]? = some r ∧ table[1]? = some q ∧ r.hits 0x00E0#16 = true ∧ q.hits 0x00EE#16 = true) :=
  ⟨⟨_, _, rfl, rfl, rfl, rfl⟩, ⟨_, _, rfl, rfl, rfl, rfl⟩⟩

/-- O6, O8, at the last pc that can be fetched from. -/
theorem witness_step_executes :
    ∃ (s : State) (i : Instr), ExecTurn s ∧ s.pc.toNat = 0x0FFE ∧
      decode (joinBytes (s.M.get s.pc.toNat) (s.M.get (s.pc.toNat + 1))) = .ok i :=
  ⟨{ base with pc := 0x0FFE#16, M := [(0xFFE, 0x60#8), (0xFFF, 0x01#8)] }, .ldImm 0 0x01#8, execTurn_of rfl rfl rfl rfl rfl, rfl, rfl⟩

/-- O7, at both ends. -/
theorem witness_fetch_above_memory :
    (∃ s : State, ExecTurn s ∧ s.pc.toNat = 0x0FFF) ∧ ∃ s : State, ExecTurn s ∧ s.pc.toNat = 0x10FE :=
  ⟨⟨{ base with pc := 0x0FFF#16 }, execTurn_of rfl rfl rfl rfl rfl, rfl⟩,
    ⟨{ base with pc := 0x10FE#16 }, execTurn_of rfl rfl rfl rfl rfl, rfl⟩⟩

/-- O8, the illegal clause. -/
theorem witness_illegal_opcode :
    ∃ s : State, ExecTurn s ∧ s.pc.toNat ≤ 0x0FFE ∧
      joinBytes (s.M.get s.pc.toNat) (s.M.get (s.pc.toNat + 1)) = 0x5011#16 :=
  ⟨{ base with M := [(0x200, 0x50#8), (0x201, 0x11#8)] }, execTurn_of rfl rfl rfl rfl rfl, by decide, rfl⟩

/-- O9: a key without an event, and one with two. -/
theorem witness_drain :
    ∃ s : State, DrainTurn s ∧ (∀ e ∈ s.EQ, e.key ≠ 3) ∧
      s.EQ = [⟨2, true⟩] ++ ⟨2, false⟩ :: [⟨5, true⟩] ∧ ∀ e ∈ [(⟨5, true⟩ : KeyEvent)], e.key ≠ 2 :=
  ⟨{ base with phase := .drain, EQ := [⟨2, true⟩, ⟨2, false⟩, ⟨5, true⟩] }, ⟨.inl rfl, rfl, rfl, rfl, rfl⟩, by decide, rfl, by decide⟩

/-- O10: each of the three cases. -/
theorem witness_nothing_enabled :
    (∃ s : State, CoreMoves s ∧ s.run = false) ∧ (∃ s : State, CoreMoves s ∧ s.fault ≠ .none) ∧
      ∃ s : State, CoreMoves s ∧ s.run = true ∧ s.wait = true ∧ s.EQ = [⟨1, false⟩] ∧ ∀ e ∈ s.EQ, e.down = false :=
  ⟨⟨State.reset, .inl rfl, rfl⟩, ⟨{ base with fault := .decodeError }, .inl rfl, by decide⟩,
    ⟨{ base with wait := true, EQ := [⟨1, false⟩] }, .inl rfl, rfl, rfl, rfl, by decide⟩⟩

/-- A state inside a subroutine, waiting in FX0A, that meets the invariant. -/
def waiting : State :=
  { base with
    M := [(0x200, 0xF3#8), (0x201, 0x0A#8)], wait := true, phase := .drain, IR := 0xF30A#16,
    sp := 1, stack := base.stack.set 0 0x0FFE#16 }

/-- O12, in a state where no part of the invariant is idle. -/
theorem witness_step_keeps_bounds_waiting :
    waiting.Inv ∧ ∃ t, step waiting = .next t :=
  ⟨{ memory := by decide,
      pcRange := by decide,
      stackRange := by decide,
      faultHalts := fun h => absurd rfl h,
      noFaultNoInfo := fun _ => rfl,
      waitRuns := fun _ => ⟨rfl, rfl⟩,
      runStarted := fun _ => rfl,
      waitLatch := fun _ => ⟨rfl, 3, rfl⟩,
      queueFits := fun _ h => nomatch h }, _, rfl⟩

/-- O12, in a state that runs an instruction, with a bounded queue that is full. -/
theorem witness_step_keeps_bounds_running :
    ∃ s t : State, s.Inv ∧ s.wait = false ∧ s.eqDepth = some s.EQ.length ∧ step s = .next t ∧ t.pc = 0x202#16 :=
  ⟨{ base with M := [(0x200, 0x60#8), (0x201, 0x07#8)], EQ := [⟨1, true⟩], eqDepth := some 1 }, _,
    { memory := by decide,
      pcRange := by decide,
      stackRange := by decide,
      faultHalts := fun h => absurd rfl h,
      noFaultNoInfo := fun _ => rfl,
      waitRuns := fun h => absurd h (by decide),
      runStarted := fun _ => rfl,
      waitLatch := fun h => absurd h (by decide),
      queueFits := fun _ h => Option.some.inj h ▸ Nat.le_refl 1 }, rfl, rfl, rfl, rfl⟩

/-- O13. -/
theorem witness_reset_move :
    ({ base with schedule := [.host .reset] } : State).schedule = .host .reset :: [] :=
  rfl

/-- O14, with a move of the host that is not idle. -/
theorem witness_stopped :
    ∃ s t : State, s.run = false ∧ s.started = true ∧ s.schedule.head? ≠ some (.host .reset) ∧ step s = .next t ∧ t.EQ ≠ s.EQ :=
  ⟨{ base with run := false, schedule := [.host (.enqueue 3 true)] }, _, rfl, rfl, by decide, rfl, by decide⟩

/-- O15, O22, O24: the three endings. -/
theorem witness_only_key_wait :
    (∃ t, exec (.ldVxK 3) base = .next t ∧ base.wait = false ∧ base.fault = .none ∧ t.wait = true) ∧
    (∃ t, exec (.jp 0x234#12) base = .next t ∧ t.wait = false) ∧
    ∃ t, exec .ret base = .next t ∧ t.fault = .stackUnderflow :=
  ⟨⟨_, rfl, rfl, rfl, rfl⟩, ⟨_, rfl, rfl⟩, ⟨_, rfl, rfl⟩⟩

/-- O16, at the last address. -/
theorem witness_memory_written :
    ∃ (s t : State) (a : Nat), exec (.stMem 0) s = .next t ∧ t.M.get a ≠ s.M.get a ∧ s.I.toNat = 0xFFF ∧ a = 0xFFF :=
  ⟨{ V 0 0x5A#8 base with I := 0xFFF#12 }, _, 0xFFF, rfl, by decide, rfl, rfl⟩

/-- O17: both writers. -/
theorem witness_screen_written :
    (∃ (s t : State), exec .cls s = .next t ∧ t.FB.get 63 31 ≠ s.FB.get 63 31) ∧
    ∃ (s t : State), exec (.drw 0 1 1#4) s = .next t ∧ t.FB.get 0 0 ≠ s.FB.get 0 0 :=
  ⟨⟨{ base with FB := base.FB.set 31 (BitVec.twoPow 64 63) }, _, rfl, by decide⟩,
    ⟨{ base with M := [(0x300, 0x80#8)], I := 0x300#12 }, _, rfl, by decide⟩⟩

/-- O18: both writers. -/
theorem witness_stack_written :
    (∃ t : State, exec (.call 0x210#12) base = .next t ∧ t.sp ≠ base.sp) ∧
    ∃ (s t : State), exec .ret s = .next t ∧ s.sp = 16 ∧ t.sp ≠ s.sp :=
  ⟨⟨_, rfl, by decide⟩, ⟨{ base with sp := 16 }, _, rfl, rfl, by decide⟩⟩

/-- O19: both writers. -/
theorem witness_index_written :
    (∃ t : State, exec (.ldI 0xFFF#12) base = .next t ∧ t.I ≠ base.I) ∧
    ∃ (s t : State), exec (.addIVx 2) s = .next t ∧ t.I ≠ s.I :=
  ⟨⟨_, rfl, by decide⟩, ⟨V 2 0x20#8 base, _, rfl, by decide⟩⟩

/-- O20: a drain and a reset. -/
theorem witness_keys_written :
    (∃ s t : State, s.schedule = [.coreWithRead] ∧ step s = .next t ∧ t.K ≠ s.K) ∧
    ∃ s t : State, s.schedule = [.host .reset] ∧ step s = .next t ∧ t.K ≠ s.K :=
  ⟨⟨{ base with phase := .drain, EQ := [⟨3, true⟩], schedule := [.coreWithRead] }, _, rfl, rfl, by decide⟩,
    ⟨{ base with K := base.K.set 3 true, schedule := [.host .reset] }, _, rfl, rfl, by decide⟩⟩

/-- O21: a flag and an ordinary destination. -/
theorem witness_flag_written :
    (∃ (s t : State), exec (.addReg 1 2) s = .next t ∧ t.reg 15 ≠ s.reg 15) ∧
    ∃ t : State, exec (.ldImm 15 0x07#8) base = .next t ∧ t.reg 15 ≠ base.reg 15 :=
  ⟨⟨V 1 0xFF#8 (V 2 0x02#8 base), _, rfl, by decide⟩, ⟨_, rfl, by decide⟩⟩

/-- O22. -/
theorem witness_faulting :
    ∃ t : State, base.fault = .none ∧ exec .ret base = .next t ∧ t.fault ≠ .none :=
  ⟨_, rfl, rfl, by decide⟩

/-- O24: a write of each timer and neither. -/
theorem witness_timers :
    (∃ t : State, exec (.ldDtVx 2) base = .next t ∧ t.fault = .none) ∧
    (∃ t : State, exec (.ldStVx 2) base = .next t ∧ t.fault = .none) ∧
    ∃ t : State, exec .cls base = .next t ∧ t.fault = .none :=
  ⟨⟨_, rfl, rfl⟩, ⟨_, rfl, rfl⟩, ⟨_, rfl, rfl⟩⟩

/-- O29 to O31, O48: a destination other than VF. -/
theorem witness_flag_clauses :
    (14 : Reg) ≠ 15 ∧ (0 : Reg) ≠ 15 :=
  by decide

/-- O35, O37: the last free entry, a full stack, an empty one. -/
theorem witness_call_depth :
    (∃ s : State, s.sp.val = 15 ∧ s.sp.val < 16) ∧ (∃ s : State, s.sp.val = 16) ∧ base.sp.val < 16 :=
  ⟨⟨{ base with sp := 15 }, rfl, by decide⟩, ⟨{ base with sp := 16 }, rfl⟩, by decide⟩

/-- O36: a full stack, one entry, none. -/
theorem witness_return_depth :
    (∃ s : State, s.sp.val = (15 : Fin 16).val + 1) ∧ (∃ s : State, s.sp.val = (0 : Fin 16).val + 1) ∧ base.sp.val = 0 :=
  ⟨⟨{ base with sp := 16 }, rfl⟩, ⟨{ base with sp := 1 }, rfl⟩, rfl⟩

/-- O37: a state of the subroutine other than the one CALL left. -/
theorem witness_call_then_return :
    ∃ t : State, exec (.call 0x210#12) base = .next t ∧ ∃ u : State, u.sp = t.sp ∧ u ≠ t ∧
      ∀ d : Fin 16, d.val < t.sp.val → u.stack[d] = t.stack[d] :=
  ⟨{ base with sp := 1, stack := base.stack.set 0 0x200#16, pc := 0x210#16, phase := .drain }, rfl,
    { base with sp := 1, stack := (base.stack.set 0 0x200#16).set 1 0x777#16 }, rfl, by decide, by decide⟩

/-- O39. -/
theorem witness_bad_minor_nibble :
    (0xF#4 : Nibble) ≠ 0x0#4 ∧ (0x1#4 : Nibble) ≠ 0x0#4 :=
  by decide

/-- O42 to O44: the highest block of 16. -/
theorem witness_block_inside :
    ∃ s : State, s.M.wf ∧ s.I.toNat + (15 : Reg).val = 0xFFF :=
  ⟨{ base with I := 0xFF0#12 }, by decide, rfl⟩

/-- O44. -/
theorem witness_block_reread :
    ∃ t u : State, exec (.stMem 0) base = .next t ∧ SameMemory t u ∧ u.I = t.I ∧ u ≠ t :=
  ⟨{ base with pc := 0x202#16, phase := .drain }, base, rfl, fun _ => rfl, rfl, by decide⟩

/-- O45: the lowest address that faults, for both kinds of block. -/
theorem witness_block_above :
    (∃ s : State, s.I.toNat + (15 : Reg).val = 0x1000) ∧
    ∃ s : State, 0 < (0x1#4 : Nibble).toNat ∧ s.I.toNat + (0x2#4 : Nibble).toNat - 1 = 0x1000 :=
  ⟨⟨{ base with I := 0xFF1#12 }, rfl⟩, ⟨{ base with I := 0xFFF#12 }, by decide, rfl⟩⟩

/-- O47, O48: an empty sprite at the top, and the highest one of 15 rows. -/
theorem witness_sprite_inside :
    (∃ s : State, s.I.toNat = 0xFFF ∧ (0x0#4 : Nibble).toNat = 0) ∧
    ∃ s : State, s.I.toNat + (0xF#4 : Nibble).toNat - 1 = 0xFFF :=
  ⟨⟨{ base with I := 0xFFF#12 }, rfl, rfl⟩, ⟨{ base with I := 0xFF1#12 }, rfl⟩⟩

/-- O47, O48: the last pixel covered by wrapping, and one not covered. -/
theorem witness_sprite_covers :
    ∃ s : State, SpriteCovers s 0 1 0x1#4 63 31 ∧ ¬ SpriteCovers s 0 1 0x1#4 62 31 ∧ s.FB.get 63 31 = false :=
  ⟨{ V 0 0xFF#8 (V 1 0xFF#8 base) with I := 0x300#12, M := [(0x300, 0x80#8)] },
    ⟨0, 0, by decide, by decide, by decide, by decide, by decide⟩, by
      rintro ⟨row, bit, -, hb, h, -⟩
      have : (62 : Nat) = (255 + bit) % 64 := h
      omega, by decide⟩

/-- O49: the highest key. -/
theorem witness_key_operand :
    ((V 4 0x0F#8 base).reg 4).toNat = (15 : Key).val :=
  rfl

/-- O49: the lowest value that names no key. -/
theorem witness_key_operand_bad :
    15 < ((V 4 0x10#8 base).reg 4).toNat :=
  by decide

/-- O52, S7. -/
theorem witness_key_wait_completion :
    ∃ (u : State) (ups later : List KeyEvent) (k : Key), CoreMoves u ∧ u.run = true ∧ u.fault = .none ∧ u.wait = true ∧
      u.IR = encode (.ldVxK 3) ∧ u.EQ = ups ++ ⟨k, true⟩ :: later ∧ ups ≠ [] ∧ ∀ e ∈ ups, e.down = false :=
  ⟨{ waiting with EQ := [⟨5, false⟩, ⟨5, true⟩, ⟨2, true⟩] }, [⟨5, false⟩], [⟨2, true⟩], 5, .inl rfl, rfl, rfl, rfl, rfl, rfl, by decide, by decide⟩

/-- O53, S7, with a queue that the events fill. -/
theorem witness_key_wait_relation :
    ∃ (s : State) (ups later : List KeyEvent) (k : Key) (rest : List Turn), s.run = true ∧ s.fault = .none ∧
      s.wait = false ∧ s.phase = .exec ∧ s.pc.toNat ≤ 0x0FFE ∧
      joinBytes (s.M.get s.pc.toNat) (s.M.get (s.pc.toNat + 1)) = encode (.ldVxK 3) ∧ (∀ e ∈ ups, e.down = false) ∧
      QueueHolds s (ups ++ ⟨k, true⟩ :: later).length ∧ s.eqDepth = some 2 ∧
      s.schedule = .core :: ((ups ++ ⟨k, true⟩ :: later).map fun e => .host (.enqueue e.key e.down)) ++
        .core :: rest :=
  ⟨{ base with
      M := [(0x200, 0xF3#8), (0x201, 0x0A#8)],
      schedule := [.core, .host (.enqueue 5 false), .host (.enqueue 5 true), .core, .core],
      eqDepth := some 2 },
    [⟨5, false⟩], [], 5, [.core], rfl, rfl, rfl, rfl, by decide, rfl, by decide,
    fun _ h => Option.some.inj h ▸ Nat.le_refl 2, rfl, rfl⟩

/-- O54, with a queue that the events fill. -/
theorem witness_key_wait_ups :
    ∃ (s : State) (turns rest : List Turn), s.run = true ∧ s.fault = .none ∧ s.wait = true ∧
      (∀ e ∈ s.EQ, e.down = false) ∧ (∀ u ∈ turns, u = .core ∨ ∃ k : Key, u = .host (.enqueue k false)) ∧
      s.schedule = turns ++ rest ∧ turns.length = 2 ∧ QueueHolds s (s.EQ ++ turns.filterMap Turn.event?).length ∧
      s.eqDepth = some 2 :=
  ⟨{ waiting with EQ := [⟨1, false⟩], schedule := [.core, .host (.enqueue 3 false)], eqDepth := some 2 },
    [.core, .host (.enqueue 3 false)], [],
    rfl, rfl, rfl, by decide, by
      intro u hu
      rcases List.mem_cons.mp hu with rfl | hu
      · exact .inl rfl
      · exact .inr ⟨3, List.mem_singleton.mp hu⟩, rfl, rfl,
    fun _ h => Option.some.inj h ▸ Nat.le_refl 2, rfl⟩

/-- O56: the longest ROM that loads, the shortest that does not, and a started core. -/
theorem witness_rom_lengths :
    (State.reset.M.wf ∧ State.reset.started = false ∧ base.started = true) ∧
    (List.replicate 3584 0x11#8).length ≤ 3584 ∧ 3584 < (List.replicate 3585 0x11#8).length :=
  ⟨⟨by decide, rfl, rfl⟩, Nat.le_of_eq List.length_replicate, Nat.lt_of_lt_of_eq (Nat.lt_succ_self 3584) List.length_replicate.symm⟩

/-- O56. -/
theorem witness_rom_schedule :
    ∃ (s : State) (bytes : List Byte), s.schedule = .host (.loadROM bytes) :: [] ∧ bytes.length = 3584 ∧ s.started = false :=
  ⟨{ State.reset with schedule := [.host (.loadROM (List.replicate 3584 0x11#8))] }, _, rfl, List.length_replicate, rfl⟩

/-- O57: each case. -/
theorem witness_start :
    (∃ s : State, s.schedule = [.host .start] ∧ s.started = false ∧ s.fault = .none) ∧
    (∃ s : State, s.schedule = [.host .start] ∧ s.started = true) ∧ ∃ s : State, s.schedule = [.host .start] ∧ s.fault ≠ .none :=
  ⟨⟨{ State.reset with schedule := [.host .start] }, rfl, rfl, rfl⟩, ⟨{ base with schedule := [.host .start] }, rfl, rfl⟩,
    ⟨{ State.reset with fault := .addressFault, schedule := [.host .start] }, rfl, by decide⟩⟩

/-- O58: each case. -/
theorem witness_stop :
    (∃ s : State, s.schedule = [.host .stop] ∧ s.run = true ∧ s.wait = false) ∧
    (∃ s : State, s.schedule = [.host .stop] ∧ s.run = false) ∧
    ∃ s : State, s.schedule = [.host .stop] ∧ s.run = true ∧ s.wait = true :=
  ⟨⟨{ base with schedule := [.host .stop] }, rfl, rfl, rfl⟩, ⟨{ State.reset with schedule := [.host .stop] }, rfl, rfl⟩,
    ⟨{ waiting with schedule := [.host .stop] }, rfl, rfl, rfl⟩⟩

/-- O59: unbounded during a wait, one place left, full. -/
theorem witness_enqueue :
    (∃ s : State, s.schedule = [.host (.enqueue 15 false)] ∧ s.wait = true ∧ s.eqDepth = none) ∧
    (∃ s : State, s.schedule = [.host (.enqueue 15 false)] ∧ s.eqDepth = some 1 ∧ s.EQ.length < 1) ∧
    ∃ s : State, s.schedule = [.host (.enqueue 15 false)] ∧ s.eqDepth = some 1 ∧ 1 ≤ s.EQ.length :=
  ⟨⟨{ waiting with schedule := [.host (.enqueue 15 false)] }, rfl, rfl, rfl⟩,
    ⟨{ base with schedule := [.host (.enqueue 15 false)], eqDepth := some 1 }, rfl, rfl, by decide⟩,
    ⟨{ base with EQ := [⟨1, true⟩], schedule := [.host (.enqueue 15 false)], eqDepth := some 1 }, rfl, rfl, by decide⟩⟩

/-- O60: both reads, and one that overlaps a clear. -/
theorem witness_host_reads :
    (∃ s : State, s.schedule = [.host .readFB]) ∧ (∃ s : State, s.schedule = [.host .readStatus]) ∧
    ∃ (s u : State), s.schedule = [.coreWithRead] ∧ step { s with schedule := [.core] } = .next u ∧ u.FB ≠ s.FB :=
  ⟨⟨{ base with schedule := [.host .readFB] }, rfl⟩, ⟨{ base with schedule := [.host .readStatus] }, rfl⟩,
    ⟨{ (base.armed 0x00E0#16) with FB := base.FB.set 5 1#64, schedule := [.coreWithRead] }, _, rfl, rfl, by decide⟩⟩

end Sys2Proof.Tests
end

section
/-!
The skips of spec/41_control_flow.md (R144 to R147). Their execution is one completion under a condition. That a last
nibble other than 0 is no opcode of 5XY0 or 9XY0 comes from two facts about the table of R94: every mask keeps the
leading nibble, and an entry of leading nibble 5 or 9 keeps the last one and asks for 0 there.
-/
namespace Sys2Proof.Proofs.ControlFlow

open Sys2Proof Sys2Proof.Machine

/-! ### Opcodes that no entry of the table matches -/

/-- Every mask of the table keeps the leading nibble. -/
theorem table_mask_group : ∀ r ∈ table, r.mask &&& 0xF000#16 = 0xF000#16 := by decide

/-- The entries of leading nibble 5 and 9 fix the last nibble, to 0 (R94). -/
theorem table_minor_zero : ∀ r ∈ table, r.pattern &&& 0xF000#16 ∈ [0x5000#16, 0x9000#16] →
    r.mask = 0xF00F#16 ∧ fieldN r.pattern = 0x0#4 := by decide

/-- An opcode has the leading nibble of the entry it matches. -/
theorem group_eq_of_hits {r : Row} {op : Word} (hr : r ∈ table) (h : r.hits op = true) :
    op &&& 0xF000#16 = r.pattern &&& 0xF000#16 := by
  have hm : op &&& r.mask = r.pattern := eq_of_beq h
  rw [← hm, BitVec.and_assoc, table_mask_group r hr]

/-- The mask of format XY0 keeps the last nibble. -/
theorem fieldN_and_minor (op : Word) : fieldN (op &&& 0xF00F#16) = fieldN op := by
  rw [fieldN, BitVec.extractLsb'_and]
  exact BitVec.and_allOnes

/-- With leading nibble 5 or 9, the decoder accepts only a last nibble 0 (R98). -/
theorem fieldN_eq_zero_of_decode_ok {op : Word} {i : Instr} (hg : op &&& 0xF000#16 ∈ [0x5000#16, 0x9000#16])
    (h : decode op = .ok i) : fieldN op = 0x0#4 := by
  obtain ⟨r, hr, hhit, -⟩ := decode_ok h
  obtain ⟨hmask, hzero⟩ := table_minor_zero r hr (group_eq_of_hits hr hhit ▸ hg)
  have hm : op &&& r.mask = r.pattern := eq_of_beq hhit
  rw [← fieldN_and_minor, ← hmask, hm, hzero]

/-- The words that leading nibbles 5 and 9 make. -/
theorem leading_nibble_word : ∀ g ∈ [0x5#4, 0x9#4],
    ((g ++ 0#4) ++ 0#8 : BitVec (4 + 4 + 8)) ∈ [0x5000#16, 0x9000#16] := by decide

theorem decode_encXYN_error {g n : Nibble} (hg : g ∈ [0x5#4, 0x9#4]) (hn : n ≠ 0x0#4) (x y : Reg) :
    decode (encXYN g x y n) = .error (.decodeError (encXYN g x y n)) := by
  cases h : decode (encXYN g x y n) with
  | error e => rw [decode_error h]
  | ok i =>
    have hgroup : encXYN g x y n &&& 0xF000#16 ∈ [0x5000#16, 0x9000#16] :=
      encXYN_and_group g x y n ▸ leading_nibble_word g hg
    exact absurd (fieldN_encXYN g x y n ▸ fieldN_eq_zero_of_decode_ok hgroup h) hn

/-! ### Skips -/

/-- What every skip leaves, its condition given as a proposition. -/
theorem complete_skip_results (s : State) {c : Bool} {P : Prop} [Decidable P] (h : c = decide P) :
    Advances (if P then s.pc + 4#16 else s.pc + 2#16) (s.complete (s.pcSkip c)) ∧
      RegisterFrame [] s (s.complete (s.pcSkip c)) ∧ TimersCounted s (s.complete (s.pcSkip c)) :=
  ⟨.complete_skip s h, .complete s _, .complete rfl rfl _⟩

theorem beq_eq_decide_eq {α : Type} [DecidableEq α] (a b : α) : (a == b) = decide (a = b) := rfl

theorem bne_eq_decide_ne {α : Type} [DecidableEq α] (a b : α) : (a != b) = decide (a ≠ b) := by
  rw [bne, beq_eq_decide_eq, decide_not]

/-- Settles O38: both are completions under the condition that the spec gives. -/
theorem skipImmediateResults : Obligations.SkipImmediateResults := fun x nn s =>
  ⟨⟨_, exec_seImm s x nn, complete_skip_results s (beq_eq_decide_eq _ _)⟩,
    ⟨_, exec_sneImm s x nn, complete_skip_results s (bne_eq_decide_ne _ _)⟩⟩

/-- Settles O39: completions as in O38, and no entry of the table matches another last nibble. -/
theorem skipRegisterResults : Obligations.SkipRegisterResults :=
  ⟨fun x y s =>
    ⟨⟨_, exec_seReg s x y, complete_skip_results s (beq_eq_decide_eq _ _)⟩,
      ⟨_, exec_sneReg s x y, complete_skip_results s (bne_eq_decide_ne _ _)⟩⟩,
    fun x y _ hn => ⟨decode_encXYN_error (by decide) hn x y, decode_encXYN_error (by decide) hn x y⟩⟩

end Sys2Proof.Proofs.ControlFlow
end

section
/-!
The instructions of spec/42_alu.md that write one register and no flag (R160 to R165). Each is one completion after
`setReg`, so what it leaves is one lemma over the byte written; an instruction's own part is what that byte is.
-/
namespace Sys2Proof.Proofs.Alu

open Sys2Proof Sys2Proof.Machine

/-! ### One register written -/

theorem reg_complete_setReg_self (s : State) (x : Reg) (b : Byte) (p : Word) :
    ((s.setReg x b).complete p).reg x = b := by
  rw [State.reg_complete, State.reg_setReg_self]

/-- What a completion that writes one register leaves, whatever the byte. -/
theorem complete_setReg_results (s : State) (x : Reg) (b : Byte) :
    RegisterFrame [x] s ((s.setReg x b).complete s.pcNext) ∧
      Advances (s.pc + 2#16) ((s.setReg x b).complete s.pcNext) ∧
      TimersCounted s ((s.setReg x b).complete s.pcNext) :=
  ⟨.complete_setReg s x b _, .complete _ _, .complete rfl rfl _⟩

theorem setReg_reg_self (s : State) (x : Reg) : s.setReg x (s.reg x) = s := by
  rw [State.setReg, State.reg_def, Fin.getElem_fin, Vector.set_getElem_self]

/-! ### Loads and immediate arithmetic -/

/-- Settles O25: the byte written is NN itself. -/
theorem loadImmediateResult : Obligations.LoadImmediateResult := fun x nn s =>
  ⟨_, exec_ldImm s x nn, reg_complete_setReg_self .., complete_setReg_results s x _⟩

/-- Settles O26: the byte written is the sum modulo 256. -/
theorem addImmediateResult : Obligations.AddImmediateResult := fun x nn s =>
  ⟨_, exec_addImm s x nn, by rw [reg_complete_setReg_self, sumByte_toNat], complete_setReg_results s x _⟩

/-- Settles O27: for X = Y the write puts back what V[X] holds, so it is no write at all. -/
theorem copyRegisterResult : Obligations.CopyRegisterResult := fun x y s => by
  obtain ⟨hframe, hpc, htimers⟩ := complete_setReg_results s x (s.reg y)
  refine ⟨_, exec_ldReg s x y, reg_complete_setReg_self .., hframe, ?_, hpc, htimers⟩
  rintro rfl
  rw [setReg_reg_self]
  exact .complete s _

/-! ### Bitwise operations -/

/-- Settles O28: the bytes written are the library's OR, AND and XOR, which act bit by bit. -/
theorem bitwiseResults : Obligations.BitwiseResults := fun x y s => by
  refine ⟨⟨_, exec_or s x y, fun b _ => ?_, complete_setReg_results s x _⟩,
    ⟨_, exec_and s x y, fun b _ => ?_, complete_setReg_results s x _⟩,
    ⟨_, exec_xor s x y, fun b _ => ?_, ?_, complete_setReg_results s x _⟩⟩
  · rw [reg_complete_setReg_self, BitVec.getLsbD_or]
  · rw [reg_complete_setReg_self, BitVec.getLsbD_and]
  · rw [reg_complete_setReg_self, BitVec.getLsbD_xor]
  · rintro rfl
    rw [reg_complete_setReg_self, BitVec.xor_self]

end Sys2Proof.Proofs.Alu
end

section
/-!
Setting the index register (R190, spec/43_index_memory.md). Writing I on the way to a completion disturbs nothing else
that the completion's frame speaks of, so the frame of ANNN is that of a bare completion.
-/
namespace Sys2Proof.Proofs.IndexRegister

open Sys2Proof Sys2Proof.Machine

/-- A completion's frame, its clause on I aside, survives a write of I before the completion. -/
theorem complete_setI_frame {dst : List Reg} {s u : State} {p : Word} (h : RegisterFrame dst s (u.complete p))
    (a : Addr) :
    SameRegsBut dst s ((u.setI a).complete p) ∧ SameStack s ((u.setI a).complete p) ∧
      SameMemory s ((u.setI a).complete p) ∧ SameScreen s ((u.setI a).complete p) ∧
      CommonFrame s ((u.setI a).complete p) :=
  ⟨h.regs, h.stack, h.memory, h.screen, h.common.keypad, h.common.status, h.common.host⟩

/-- Settles O40: the execution is one completion after `setI`, and the address written is NNN itself. -/
theorem loadIndexResult : Obligations.LoadIndexResult := fun nnn s => by
  obtain ⟨hregs, hstack, hmem, hscreen, hcommon⟩ := complete_setI_frame (.complete s s.pcNext) nnn
  exact ⟨_, exec_ldI s nnn, rfl, hregs, hstack, hmem, hscreen, hcommon, .complete _ _, .complete rfl rfl _⟩

end Sys2Proof.Proofs.IndexRegister
end

section
/-!
Clearing the screen (R201, spec/44_display.md). Writing the framebuffer on the way to a completion disturbs nothing
else that the completion's frame speaks of, so the frame of 00E0 is that of a bare completion.
-/
namespace Sys2Proof.Proofs.Display

open Sys2Proof Sys2Proof.Machine

/-- A completion's frame, its clause on the screen aside, survives a write of the framebuffer before the completion. -/
theorem complete_setFB_frame {dst : List Reg} {s u : State} {p : Word} (h : RegisterFrame dst s (u.complete p))
    (f : Framebuffer) :
    SameRegsBut dst s ((u.setFB f).complete p) ∧ ((u.setFB f).complete p).I = s.I ∧
      SameStack s ((u.setFB f).complete p) ∧ SameMemory s ((u.setFB f).complete p) ∧
      CommonFrame s ((u.setFB f).complete p) :=
  ⟨h.regs, h.index, h.stack, h.memory, h.common.keypad, h.common.status, h.common.host⟩

/-- Settles O46: the execution is one completion after `setFB`, and every pixel of the screen written is off. -/
theorem clearScreenResult : Obligations.ClearScreenResult := fun s => by
  obtain ⟨hregs, hindex, hstack, hmem, hcommon⟩ := complete_setFB_frame (.complete s s.pcNext) Framebuffer.blank
  exact ⟨_, exec_cls s, Framebuffer.get_blank, hregs, hindex, hstack, hmem, hcommon, .complete _ _,
    .complete rfl rfl _⟩

end Sys2Proof.Proofs.Display
end

section
/-!
The delay timer's read and the key wait (R222, R227, spec/45_keys_timers.md). R227 speaks of every instruction, so it
goes by the three ways in which one can end: a fault keeps `wait`, the suspension of FX0A sets it, a completion keeps
it.
-/
namespace Sys2Proof.Proofs.KeysTimers

open Sys2Proof Sys2Proof.Machine

/-! ### How an instruction leaves `wait` and `phase` -/

/-- Of the three endings only the suspension sets `wait`, and it is the ending of FX0A alone. -/
theorem wait_iff_of_ending {i : Instr} {s t : State} (h : Ending i s t) (hw : s.wait = false) :
    t.wait = true ↔ ∃ x : Reg, i = .ldVxK x := by
  cases h with
  | raises _ other => exact iff_of_false (by simp [hw]) fun ⟨x, hx⟩ => other x hx
  | suspends => exact iff_of_true rfl ⟨_, rfl⟩
  | completes effect => exact iff_of_false (by simp [effect.wait, hw]) fun ⟨x, hx⟩ => effect.notKeyWait x hx

/-- The suspension of FX0A, too, makes CoreDrain next (R120), so this needs no exception for it. -/
theorem drain_or_halted_of_ending {i : Instr} {s t : State} (h : Ending i s t) :
    t.phase = .drain ∨ (t.fault ≠ .none ∧ t.run = false) := by
  cases h with
  | raises cause _ => exact .inr ⟨cause, rfl⟩
  | suspends => exact .inl rfl
  | completes _ => exact .inl rfl

/-- Settles O15, by the three endings of an instruction. -/
theorem onlyKeyWaitSuspends : Obligations.OnlyKeyWaitSuspends := fun _ _ _ hw _ h =>
  ⟨wait_iff_of_ending (exec_ending h) hw, fun _ => drain_or_halted_of_ending (exec_ending h)⟩

/-! ### The delay timer -/

/-- Settles O50: the byte written is DT of the state before, and the completion after the write counts the timers. -/
theorem readDelayTimerResult : Obligations.ReadDelayTimerResult := fun x s =>
  ⟨_, exec_ldVxDt s x, Alu.reg_complete_setReg_self .., Alu.complete_setReg_results s x _⟩

end Sys2Proof.Proofs.KeysTimers
end

section
/-!
The decoder and the encoder (spec/30_encoding.md). A row of the table asks for the leading nibble of an opcode, and for
its last nibble or its low byte besides, and an opcode is the concatenation of its fields: so what a row builds from an
opcode it matches encodes back to that opcode. The other way round an instruction's own row matches its word, and the
rows overlap nowhere but at CLS and RET (R95).
-/
namespace Sys2Proof.Proofs.DecodeEncode

open Sys2Proof Sys2Proof.Laws

/-! ### An opcode is made of its fields -/

/-- The leading nibble, op[15:12]. -/
def fieldGroup (op : Word) : Nibble := op.extractLsb' 12 4

theorem encNNN_fields (op : Word) : encNNN (fieldGroup op) (fieldNNN op) = op :=
  BitVec.extractLsb'_append_extractLsb'_eq_extractLsb' (x := op) (by omega) |>.trans BitVec.extractLsb'_eq_self

theorem group_append_X (op : Word) : fieldGroup op ++ nibOf (fieldX op) = highByte op :=
  BitVec.extractLsb'_append_extractLsb'_eq_extractLsb' (by omega)

theorem Y_append_N (op : Word) : nibOf (fieldY op) ++ fieldN op = lowByte op :=
  BitVec.extractLsb'_append_extractLsb'_eq_extractLsb' (by omega)

theorem encXNN_fields (op : Word) : encXNN (fieldGroup op) (fieldX op) (fieldNN op) = op := by
  rw [encXNN, group_append_X]
  exact joinBytes_split op

theorem encXYN_fields (op : Word) : encXYN (fieldGroup op) (fieldX op) (fieldY op) (fieldN op) = op := by
  rw [encXYN, group_append_X, Y_append_N]
  exact joinBytes_split op

/-! ### A mask keeps a field on which it is all ones -/

theorem fieldGroup_and {mask : Word} (h : fieldGroup mask = 0xF#4) (op : Word) :
    fieldGroup (op &&& mask) = fieldGroup op := by
  have hm : fieldGroup (op &&& mask) = fieldGroup op &&& fieldGroup mask := BitVec.extractLsb'_and
  rw [hm, h]
  exact BitVec.and_allOnes

theorem fieldN_and {mask : Word} (h : fieldN mask = 0xF#4) (op : Word) : fieldN (op &&& mask) = fieldN op := by
  have hm : fieldN (op &&& mask) = fieldN op &&& fieldN mask := BitVec.extractLsb'_and
  rw [hm, h]
  exact BitVec.and_allOnes

theorem fieldNN_and {mask : Word} (h : fieldNN mask = 0xFF#8) (op : Word) : fieldNN (op &&& mask) = fieldNN op := by
  have hm : fieldNN (op &&& mask) = fieldNN op &&& fieldNN mask := BitVec.extractLsb'_and
  rw [hm, h]
  exact BitVec.and_allOnes

/-! ### What a row builds encodes back -/

/-- No bit of an opcode that the row matches is lost in the instruction it builds. -/
def Faithful (r : Row) : Prop := ∀ op : Word, r.hits op = true → encode (r.build op) = op

theorem faithful_word {w : Word} {i : Instr} (hi : encode i = w) : Faithful ⟨0xFFFF#16, w, fun _ => i⟩ := fun op h => by
  have hw : op &&& BitVec.allOnes 16 = w := eq_of_beq h
  rw [BitVec.and_allOnes] at hw
  exact hi.trans hw.symm

theorem faithful_NNN {w : Word} {f : Addr → Instr} (hi : ∀ nnn, encode (f nnn) = encNNN (fieldGroup w) nnn) :
    Faithful ⟨0xF000#16, w, fun op => f (fieldNNN op)⟩ := fun op h => by
  have hw : op &&& 0xF000#16 = w := eq_of_beq h
  rw [hi, ← hw, fieldGroup_and rfl, encNNN_fields]

theorem faithful_XNN {w : Word} {f : Reg → Byte → Instr}
    (hi : ∀ x nn, encode (f x nn) = encXNN (fieldGroup w) x nn) :
    Faithful ⟨0xF000#16, w, fun op => f (fieldX op) (fieldNN op)⟩ := fun op h => by
  have hw : op &&& 0xF000#16 = w := eq_of_beq h
  rw [hi, ← hw, fieldGroup_and rfl, encXNN_fields]

theorem faithful_XYN {w : Word} {f : Reg → Reg → Nibble → Instr}
    (hi : ∀ x y n, encode (f x y n) = encXYN (fieldGroup w) x y n) :
    Faithful ⟨0xF000#16, w, fun op => f (fieldX op) (fieldY op) (fieldN op)⟩ := fun op h => by
  have hw : op &&& 0xF000#16 = w := eq_of_beq h
  rw [hi, ← hw, fieldGroup_and rfl, encXYN_fields]

theorem faithful_XY {w : Word} {f : Reg → Reg → Instr}
    (hi : ∀ x y, encode (f x y) = encXYN (fieldGroup w) x y (fieldN w)) :
    Faithful ⟨0xF00F#16, w, fun op => f (fieldX op) (fieldY op)⟩ := fun op h => by
  have hw : op &&& 0xF00F#16 = w := eq_of_beq h
  rw [hi, ← hw, fieldGroup_and rfl, fieldN_and rfl, encXYN_fields]

theorem faithful_X {w : Word} {f : Reg → Instr} (hi : ∀ x, encode (f x) = encXNN (fieldGroup w) x (fieldNN w)) :
    Faithful ⟨0xF0FF#16, w, fun op => f (fieldX op)⟩ := fun op h => by
  have hw : op &&& 0xF0FF#16 = w := eq_of_beq h
  rw [hi, ← hw, fieldGroup_and rfl, fieldNN_and rfl, encXNN_fields]

theorem rowsControl_faithful : ∀ r ∈ rowsControl, Faithful r := by
  simp only [rowsControl, List.forall_mem_cons]
  exact ⟨faithful_word rfl, faithful_word rfl, faithful_NNN fun _ => rfl, faithful_NNN fun _ => rfl,
    faithful_NNN fun _ => rfl, faithful_XNN fun _ _ => rfl, faithful_XNN fun _ _ => rfl,
    faithful_XY fun _ _ => rfl, List.forall_mem_nil _⟩

theorem rowsAlu_faithful : ∀ r ∈ rowsAlu, Faithful r := by
  simp only [rowsAlu, List.forall_mem_cons]
  exact ⟨faithful_XNN fun _ _ => rfl, faithful_XNN fun _ _ => rfl, faithful_XY fun _ _ => rfl,
    faithful_XY fun _ _ => rfl, faithful_XY fun _ _ => rfl, faithful_XY fun _ _ => rfl,
    faithful_XY fun _ _ => rfl, faithful_XY fun _ _ => rfl, faithful_XY fun _ _ => rfl,
    faithful_XY fun _ _ => rfl, faithful_XY fun _ _ => rfl, List.forall_mem_nil _⟩

theorem rowsMiddle_faithful : ∀ r ∈ rowsMiddle, Faithful r := by
  simp only [rowsMiddle, List.forall_mem_cons]
  exact ⟨faithful_XY fun _ _ => rfl, faithful_NNN fun _ => rfl, faithful_NNN fun _ => rfl,
    faithful_XNN fun _ _ => rfl, faithful_XYN fun _ _ _ => rfl, faithful_X fun _ => rfl,
    faithful_X fun _ => rfl, List.forall_mem_nil _⟩

theorem rowsMisc_faithful : ∀ r ∈ rowsMisc, Faithful r := by
  simp only [rowsMisc, List.forall_mem_cons]
  exact ⟨faithful_X fun _ => rfl, faithful_X fun _ => rfl, faithful_X fun _ => rfl,
    faithful_X fun _ => rfl, faithful_X fun _ => rfl, faithful_X fun _ => rfl,
    faithful_X fun _ => rfl, faithful_X fun _ => rfl, faithful_X fun _ => rfl, List.forall_mem_nil _⟩

theorem table_faithful : ∀ r ∈ table, Faithful r := by
  simp only [table, List.forall_mem_append]
  exact ⟨⟨⟨rowsControl_faithful, rowsAlu_faithful⟩, rowsMiddle_faithful⟩, rowsMisc_faithful⟩

theorem encode_of_decode {op : Word} {i : Instr} (h : decode op = .ok i) : encode i = op := by
  obtain ⟨r, hr, hhit, rfl⟩ := Machine.decode_ok h
  exact table_faithful r hr op hhit

/-- The two fields that make a SYS no instruction, and no other term is ill-formed (R95). -/
theorem wellFormed_or_sys (i : Instr) : i.WellFormed ∨ i = .sys 0x0E0#12 ∨ i = .sys 0x0EE#12 := by
  cases i
  case sys nnn =>
    by_cases hcls : nnn = 0x0E0#12
    · exact .inr (.inl (congrArg Instr.sys hcls))
    by_cases hret : nnn = 0x0EE#12
    · exact .inr (.inr (congrArg Instr.sys hret))
    · exact .inl (Bool.and_eq_true_iff.mpr ⟨bne_iff_ne.mpr hcls, bne_iff_ne.mpr hret⟩)
  all_goals exact .inl rfl

/-- Settles O3: what the matched row builds encodes back; and the words of the two ill-formed SYS decode to CLS and
RET. -/
theorem encodeOfDecodeIsTheOpcode : Obligations.EncodeOfDecodeIsTheOpcode := fun op i h => by
  have hop := encode_of_decode h
  refine ⟨?_, hop⟩
  obtain hwf | rfl | rfl := wellFormed_or_sys i
  · exact hwf
  · have hcls : decode op = .ok .cls := by rw [← hop]; rfl
    exact absurd (Except.ok.inj (hcls.symm.trans h)) nofun
  · have hret : decode op = .ok .ret := by rw [← hop]; rfl
    exact absurd (Except.ok.inj (hret.symm.trans h)) nofun

/-! ### Where the table's entries overlap -/

/-- The two entries agree where both masks look: some word matches both. -/
abbrev Compatible (r q : Row) : Prop := r.pattern &&& q.mask = q.pattern &&& r.mask

theorem compatible_of_hits {r q : Row} {op : Word} (hr : r.hits op = true) (hq : q.hits op = true) :
    Compatible r q := by
  have hr : op &&& r.mask = r.pattern := eq_of_beq hr
  have hq : op &&& q.mask = q.pattern := eq_of_beq hq
  rw [Compatible, ← hr, ← hq, BitVec.and_assoc, BitVec.and_assoc, BitVec.and_comm r.mask]

/-- Entries 3 to 35 pairwise. -/
theorem table_pairwise_incompatible : (table.drop 2).Pairwise (fun r q => ¬ Compatible r q) := by decide

/-- Entries 1 and 2 look at the whole word. -/
theorem table_word_entries : ∀ r ∈ table.take 2, r.mask = 0xFFFF#16 := by decide

theorem word_entry_overlaps : ∀ r ∈ (table.take 2).zipIdx, ∀ q ∈ table.zipIdx,
    (q.2 = 2 → q.1.hits r.1.pattern = true) ∧ (q.2 ≠ r.2 → q.2 ≠ 2 → q.1.hits r.1.pattern = false) := by decide

/-- Settles O5: two entries that match one opcode agree where both masks look, which is checked on the table; and
entries 1 and 2 match one word each. -/
theorem tableEntriesOverlapOnlyAtClsAndRet : Obligations.TableEntriesOverlapOnlyAtClsAndRet := by
  refine ⟨rfl, fun op j k r q hj hjk hr hq ⟨hrop, hqop⟩ => ?_, fun op j k r q hj hr hrop hq => ?_⟩
  · have hr' : (table.drop 2)[j - 2]? = some r := by rw [List.getElem?_drop, Nat.add_sub_cancel' hj, hr]
    have hq' : (table.drop 2)[k - 2]? = some q := by rw [List.getElem?_drop, Nat.add_sub_cancel' (by omega), hq]
    obtain ⟨hj2, rfl⟩ := List.getElem?_eq_some_iff.mp hr'
    obtain ⟨hk2, rfl⟩ := List.getElem?_eq_some_iff.mp hq'
    exact List.pairwise_iff_getElem.mp table_pairwise_incompatible _ _ hj2 hk2 (by omega)
      (compatible_of_hits hrop hqop)
  · have hr' : (table.take 2)[j]? = some r := by rw [List.getElem?_take_of_lt hj, hr]
    have hw : op &&& r.mask = r.pattern := eq_of_beq hrop
    rw [table_word_entries r (List.mem_of_getElem? hr')] at hw
    have hop : op = r.pattern := BitVec.and_allOnes.symm.trans hw
    exact hop ▸ word_entry_overlaps (r, j) (List.mk_mem_zipIdx_iff_getElem?.mpr hr') (q, k)
      (List.mk_mem_zipIdx_iff_getElem?.mpr hq)

/-! ### Decoding an encoding -/

/-- The word of every instruction matches the instruction's own row, which builds it back. -/
theorem ownRow : ∀ i : Instr, OwnRow.Statement i
  | .cls => OwnRow.cls
  | .ret => OwnRow.ret
  | .sys nnn => OwnRow.sys nnn
  | .jp nnn => OwnRow.jp nnn
  | .call nnn => OwnRow.call nnn
  | .seImm x nn => OwnRow.seImm x nn
  | .sneImm x nn => OwnRow.sneImm x nn
  | .seReg x y => OwnRow.seReg x y
  | .ldImm x nn => OwnRow.ldImm x nn
  | .addImm x nn => OwnRow.addImm x nn
  | .ldReg x y => OwnRow.ldReg x y
  | .or x y => OwnRow.or x y
  | .and x y => OwnRow.and x y
  | .xor x y => OwnRow.xor x y
  | .addReg x y => OwnRow.addReg x y
  | .sub x y => OwnRow.sub x y
  | .shr x y => OwnRow.shr x y
  | .subn x y => OwnRow.subn x y
  | .shl x y => OwnRow.shl x y
  | .sneReg x y => OwnRow.sneReg x y
  | .ldI nnn => OwnRow.ldI nnn
  | .jpV0 nnn => OwnRow.jpV0 nnn
  | .rnd x nn => OwnRow.rnd x nn
  | .drw x y n => OwnRow.drw x y n
  | .skp x => OwnRow.skp x
  | .sknp x => OwnRow.sknp x
  | .ldVxDt x => OwnRow.ldVxDt x
  | .ldVxK x => OwnRow.ldVxK x
  | .ldDtVx x => OwnRow.ldDtVx x
  | .ldStVx x => OwnRow.ldStVx x
  | .addIVx x => OwnRow.addIVx x
  | .ldFVx x => OwnRow.ldFVx x
  | .ldBVx x => OwnRow.ldBVx x
  | .stMem x => OwnRow.stMem x
  | .ldMem x => OwnRow.ldMem x

/-- An opcode that a row of the table matches is accepted. -/
theorem decode_ok_of_hits {r : Row} {op : Word} (hr : r ∈ table) (h : r.hits op = true) :
    ∃ i, decode op = .ok i := by
  obtain ⟨q, hq⟩ := Option.isSome_iff_exists.mp (List.find?_isSome (p := (·.hits op)) |>.mpr ⟨r, hr, h⟩)
  exact ⟨q.build op, by rw [decode, hq]⟩

/-- Instructions of one row with one word are the same. -/
theorem eq_of_entry_eq {i j : Instr} (he : OwnRow.entry i = OwnRow.entry j) (hw : encode i = encode j) : i = j := by
  obtain ⟨r, hr, -, hi⟩ := ownRow i
  obtain ⟨q, hq, -, hj⟩ := ownRow j
  have hrq : r = q := Option.some.inj (hr.symm.trans (he ▸ hq))
  rw [← hi, ← hj, hrq, hw]

/-- Two different rows that match one word are that of CLS or RET and, later, that of SYS. -/
theorem entry_lt_two_of_lt {i j : Instr} (hlt : OwnRow.entry i < OwnRow.entry j) (hw : encode i = encode j) :
    OwnRow.entry i < 2 ∧ OwnRow.entry j = 2 := by
  obtain ⟨r, hr, hri, -⟩ := ownRow i
  obtain ⟨q, hq, hqj, -⟩ := ownRow j
  rw [← hw] at hqj
  obtain ⟨-, hpair, hword⟩ := tableEntriesOverlapOnlyAtClsAndRet
  have hi : OwnRow.entry i < 2 := Nat.lt_of_not_le fun hi => hpair (encode i) _ _ r q hi hlt hr hq ⟨hri, hqj⟩
  refine ⟨hi, Decidable.byContradiction fun hj => ?_⟩
  have hmiss := (hword (encode i) _ _ r q hi hr hri hq).2 (Nat.ne_of_gt hlt) hj
  exact absurd (hmiss.symm.trans hqj) (by decide)

/-- Only CLS and RET have the entries 1 and 2. -/
theorem eq_of_entry_lt_two {i : Instr} (h : OwnRow.entry i < 2) : i = .cls ∨ i = .ret := by
  cases i
  case cls => exact .inl rfl
  case ret => exact .inr rfl
  all_goals exact absurd h (of_decide_eq_false rfl)

theorem eq_sys_of_entry {i : Instr} (h : OwnRow.entry i = 2) : ∃ nnn, i = .sys nnn := by
  cases i
  case sys nnn => exact ⟨nnn, rfl⟩
  all_goals exact absurd h (of_decide_eq_false rfl)

/-- The words of CLS and RET are not those of a well-formed SYS (R95). -/
theorem not_entry_lt_of_wf {i j : Instr} (hj : j.WellFormed) (hw : encode i = encode j) :
    ¬ OwnRow.entry i < OwnRow.entry j := fun hlt => by
    obtain ⟨hi, hsys⟩ := entry_lt_two_of_lt hlt hw
    obtain ⟨nnn, rfl⟩ := eq_sys_of_entry hsys
    have hnnn : fieldNNN (encode i) = nnn := by rw [hw, encode, fieldNNN_encNNN]
    obtain rfl | rfl := eq_of_entry_lt_two hi
    · exact absurd (hnnn ▸ hj) (by decide)
    · exact absurd (hnnn ▸ hj) (by decide)

theorem encode_injective {i j : Instr} (hi : i.WellFormed) (hj : j.WellFormed) (hw : encode i = encode j) : i = j := by
  rcases Nat.lt_trichotomy (OwnRow.entry i) (OwnRow.entry j) with hlt | heq | hgt
  · exact absurd hlt (not_entry_lt_of_wf hj hw)
  · exact eq_of_entry_eq heq hw
  · exact absurd hgt (not_entry_lt_of_wf hi hw.symm)

theorem decode_encode {i : Instr} (hi : i.WellFormed) : decode (encode i) = .ok i := by
  obtain ⟨r, hr, hhit, -⟩ := ownRow i
  obtain ⟨j, hj⟩ := decode_ok_of_hits (List.mem_of_getElem? hr) hhit
  obtain ⟨hwf, hw⟩ := encodeOfDecodeIsTheOpcode _ _ hj
  rw [hj, encode_injective hwf hi hw]

/-- Settles O2: the instruction's own row makes its word accepted, what is decoded encodes to the same word, and
well-formed instructions have different words. -/
theorem decodeOfEncodeIsTheInstruction : Obligations.DecodeOfEncodeIsTheInstruction := fun i hi =>
  ⟨decode_encode hi, fun rest => by
    simp only [encodeBytes, List.cons_append, List.nil_append, decodeBytes, joinBytes_split, decode_encode hi]⟩

/-! ### The legal set -/

theorem fieldGroup_toNat (op : Word) : (fieldGroup op).toNat = op.toNat / 4096 := by
  have := op.isLt
  simp only [fieldGroup, BitVec.extractLsb'_toNat, Nat.shiftRight_eq_div_pow]
  omega

theorem fieldN_toNat (op : Word) : (fieldN op).toNat = op.toNat % 16 := by
  simp [fieldN, BitVec.extractLsb'_toNat]

theorem fieldNN_toNat (op : Word) : (fieldNN op).toNat = op.toNat % 256 := by
  simp [fieldNN, BitVec.extractLsb'_toNat]

/-- The leading nibbles that make an opcode legal whatever follows. -/
def legalGroups : List Nibble :=
  [0x0#4, 0x1#4, 0x2#4, 0x3#4, 0x4#4, 0x6#4, 0x7#4, 0xA#4, 0xB#4, 0xC#4, 0xD#4]

/-- The legal pairs of leading and last nibble, for the groups that look at the last nibble. -/
def legalMinors : List (Nibble × Nibble) :=
  [(0x5#4, 0x0#4), (0x8#4, 0x0#4), (0x8#4, 0x1#4), (0x8#4, 0x2#4), (0x8#4, 0x3#4), (0x8#4, 0x4#4), (0x8#4, 0x5#4),
    (0x8#4, 0x6#4), (0x8#4, 0x7#4), (0x8#4, 0xE#4), (0x9#4, 0x0#4)]

/-- The legal pairs of leading nibble and low byte, for the groups that look at the low byte. -/
def legalLows : List (Nibble × Byte) :=
  [(0xE#4, 0x9E#8), (0xE#4, 0xA1#8), (0xF#4, 0x07#8), (0xF#4, 0x0A#8), (0xF#4, 0x15#8), (0xF#4, 0x18#8),
    (0xF#4, 0x1E#8), (0xF#4, 0x29#8), (0xF#4, 0x33#8), (0xF#4, 0x55#8), (0xF#4, 0x65#8)]

theorem mem_legalGroups_iff (op : Word) : fieldGroup op ∈ legalGroups ↔
    op.toNat / 4096 ∈ [0x0, 0x1, 0x2, 0x3, 0x4, 0x6, 0x7, 0xA, 0xB, 0xC, 0xD] := by
  simp only [← fieldGroup_toNat, legalGroups, List.mem_cons, List.not_mem_nil, BitVec.toNat_eq, BitVec.toNat_ofNat]

theorem mem_legalMinors_iff (op : Word) : (fieldGroup op, fieldN op) ∈ legalMinors ↔
    (op.toNat / 4096 = 0x5 ∧ op.toNat % 16 = 0) ∨
    (op.toNat / 4096 = 0x8 ∧ op.toNat % 16 ∈ [0x0, 0x1, 0x2, 0x3, 0x4, 0x5, 0x6, 0x7, 0xE]) ∨
    (op.toNat / 4096 = 0x9 ∧ op.toNat % 16 = 0) := by
  simp only [← fieldGroup_toNat, ← fieldN_toNat, legalMinors, List.mem_cons, List.not_mem_nil, or_false, Prod.mk.injEq,
    BitVec.toNat_eq, BitVec.toNat_ofNat, Nat.reducePow, Nat.reduceMod, and_or_left, or_assoc]

theorem mem_legalLows_iff (op : Word) : (fieldGroup op, fieldNN op) ∈ legalLows ↔
    (op.toNat / 4096 = 0xE ∧ op.toNat % 256 ∈ [0x9E, 0xA1]) ∨
    (op.toNat / 4096 = 0xF ∧ op.toNat % 256 ∈ [0x07, 0x0A, 0x15, 0x18, 0x1E, 0x29, 0x33, 0x55, 0x65]) := by
  simp only [← fieldGroup_toNat, ← fieldNN_toNat, legalLows, List.mem_cons, List.not_mem_nil, or_false, Prod.mk.injEq,
    BitVec.toNat_eq, BitVec.toNat_ofNat, Nat.reducePow, Nat.reduceMod, and_or_left, or_assoc]

theorem legalOpcode_iff (op : Word) : Machine.LegalOpcode op ↔
    fieldGroup op ∈ legalGroups ∨ (fieldGroup op, fieldN op) ∈ legalMinors ∨
      (fieldGroup op, fieldNN op) ∈ legalLows := by
  have hpair : op.toNat / 4096 ∈ [0x5, 0x9] ↔ op.toNat / 4096 = 0x5 ∨ op.toNat / 4096 = 0x9 := by simp
  rw [mem_legalGroups_iff, mem_legalMinors_iff, mem_legalLows_iff, Machine.LegalOpcode, hpair, or_and_right, or_assoc,
    or_assoc, or_assoc, or_left_comm (a := op.toNat / 4096 = 0x9 ∧ _)
      (b := op.toNat / 4096 = 0x8 ∧ _)]

/-- The patterns of the rows with a given mask. -/
def patterns (mask : Word) : List Word := (table.filter (·.mask == mask)).map (·.pattern)

theorem mem_patterns {mask p : Word} : p ∈ patterns mask ↔ ∃ r ∈ table, r.mask = mask ∧ r.pattern = p := by
  simp only [patterns, List.mem_map, List.mem_filter, beq_iff_eq, and_assoc]

theorem patterns_group : patterns 0xF000#16 = legalGroups.map fun g => encNNN g 0#12 := by decide

theorem patterns_minor : patterns 0xF00F#16 = legalMinors.map fun c => encXYN c.1 0 0 c.2 := by decide

theorem patterns_low : patterns 0xF0FF#16 = legalLows.map fun c => encXNN c.1 0 c.2 := by decide

theorem fieldGroup_encNNN (g : Nibble) (nnn : Addr) : fieldGroup (encNNN g nnn) = g := extract_high g nnn

theorem fieldGroup_encXNN (g : Nibble) (x : Reg) (nn : Byte) : fieldGroup (encXNN g x nn) = g := by
  have h : BitVec.extractLsb' 12 4 ((g ++ nibOf x) ++ nn) = BitVec.extractLsb' 4 4 (g ++ nibOf x) :=
    BitVec.extractLsb'_append_eq_of_le (by omega)
  exact h.trans (extract_high g (nibOf x))

/-- A function that can be undone puts no further element into the image of a list. -/
theorem mem_map_iff_of_leftInverse {α β : Type} {f : α → β} {g : β → α} (h : ∀ a, g (f a) = a) (a : α)
    (l : List α) : f a ∈ l.map f ↔ a ∈ l := by
  refine ⟨fun hfa => ?_, List.mem_map_of_mem⟩
  obtain ⟨b, hb, hfb⟩ := List.mem_map.mp hfa
  rwa [← h a, ← hfb, h b]

theorem and_group_mem_iff (op : Word) : op &&& 0xF000#16 ∈ patterns 0xF000#16 ↔ fieldGroup op ∈ legalGroups := by
  have hop : op &&& 0xF000#16 = encNNN (fieldGroup op) 0#12 := by
    have h := encNNN_and_group (fieldGroup op) (fieldNNN op)
    rwa [encNNN_fields] at h
  rw [patterns_group, hop]
  exact mem_map_iff_of_leftInverse (f := fun g => encNNN g 0#12) (g := fieldGroup) (fun g => fieldGroup_encNNN g _) _ _

theorem and_minor_mem_iff (op : Word) :
    op &&& 0xF00F#16 ∈ patterns 0xF00F#16 ↔ (fieldGroup op, fieldN op) ∈ legalMinors := by
  have hop : op &&& 0xF00F#16 = encXYN (fieldGroup op) 0 0 (fieldN op) := by
    have h := encXYN_and_minor (fieldGroup op) (fieldX op) (fieldY op) (fieldN op)
    rwa [encXYN_fields] at h
  rw [patterns_minor, hop]
  exact mem_map_iff_of_leftInverse (f := fun c : Nibble × Nibble => encXYN c.1 0 0 c.2)
    (g := fun op => (fieldGroup op, fieldN op)) (fun _ => Prod.ext (fieldGroup_encXNN ..) (fieldN_encXYN ..))
    (fieldGroup op, fieldN op) _

theorem and_low_mem_iff (op : Word) :
    op &&& 0xF0FF#16 ∈ patterns 0xF0FF#16 ↔ (fieldGroup op, fieldNN op) ∈ legalLows := by
  have hop : op &&& 0xF0FF#16 = encXNN (fieldGroup op) 0 (fieldNN op) := by
    have h := encXNN_and_minor (fieldGroup op) (fieldX op) (fieldNN op)
    rwa [encXNN_fields] at h
  rw [patterns_low, hop]
  exact mem_map_iff_of_leftInverse (f := fun c : Nibble × Byte => encXNN c.1 0 c.2)
    (g := fun op => (fieldGroup op, fieldNN op)) (fun _ => Prod.ext (fieldGroup_encXNN ..) (fieldNN_encXNN ..))
    (fieldGroup op, fieldNN op) _

/-- Besides the three masks of the legal set the table has the full one, of CLS and RET, which lie inside SYS. -/
theorem table_masks : ∀ r ∈ table, r.mask ∈ [0xF000#16, 0xF00F#16, 0xF0FF#16] ∨
    r.mask = 0xFFFF#16 ∧ fieldGroup r.pattern = 0x0#4 := by decide

/-- A row with one of the three masks matches exactly when its pattern is what the mask leaves. -/
theorem hits_iff_mem_patterns (mask op : Word) :
    (∃ r ∈ table, r.mask = mask ∧ r.hits op = true) ↔ op &&& mask ∈ patterns mask := by
  rw [mem_patterns]
  refine exists_congr fun r => and_congr_right fun _ => and_congr_right fun hm => ?_
  rw [Row.hits, hm, beq_iff_eq, eq_comm]

theorem hits_iff_legal (op : Word) : (∃ r ∈ table, r.hits op = true) ↔ Machine.LegalOpcode op := by
  rw [legalOpcode_iff, ← and_group_mem_iff, ← and_minor_mem_iff, ← and_low_mem_iff, ← hits_iff_mem_patterns,
    ← hits_iff_mem_patterns, ← hits_iff_mem_patterns]
  constructor
  · rintro ⟨r, hr, hhit⟩
    obtain hm | ⟨hm, hg⟩ := table_masks r hr
    · simp only [List.mem_cons, List.not_mem_nil, or_false] at hm
      obtain hm | hm | hm := hm
      · exact .inl ⟨r, hr, hm, hhit⟩
      · exact .inr (.inl ⟨r, hr, hm, hhit⟩)
      · exact .inr (.inr ⟨r, hr, hm, hhit⟩)
    · have hop : op &&& r.mask = r.pattern := eq_of_beq hhit
      have hgroup : fieldGroup op = 0x0#4 := by rw [← hg, ← hop, fieldGroup_and (by rw [hm]; rfl)]
      refine .inl ((hits_iff_mem_patterns _ op).mpr ((and_group_mem_iff op).mpr ?_))
      rw [hgroup]
      exact List.mem_cons_self
  · rintro (⟨r, hr, -, hhit⟩ | ⟨r, hr, -, hhit⟩ | ⟨r, hr, -, hhit⟩) <;> exact ⟨r, hr, hhit⟩

theorem decode_ok_of_legal {op : Word} (h : Machine.LegalOpcode op) : ∃ i, decode op = .ok i :=
  let ⟨_, hr, hhit⟩ := (hits_iff_legal _).mpr h
  decode_ok_of_hits hr hhit

theorem decode_error_of_illegal {op : Word} (h : ¬ Machine.LegalOpcode op) :
    decode op = .error (.decodeError op) := by
  cases hd : decode op with
  | error e => rw [Machine.decode_error hd]
  | ok i =>
    obtain ⟨r, hr, hhit, -⟩ := Machine.decode_ok hd
    exact absurd ((hits_iff_legal op).mp ⟨r, hr, hhit⟩) h

/-- Settles O4: the legal opcodes are those that a row of the table matches. -/
theorem legalOpcodesAreExactlyTheAccepted : Obligations.LegalOpcodesAreExactlyTheAccepted := fun _ =>
  ⟨decode_ok_of_legal, decode_error_of_illegal⟩

/-- Settles O1: seventeen closed facts, evaluated. -/
theorem writtenWordsDecodeAsTheSpecSays : Obligations.WrittenWordsDecodeAsTheSpecSays :=
  ⟨rfl, rfl, rfl, rfl, rfl, rfl, rfl, rfl, rfl, rfl, rfl, rfl, rfl, rfl, rfl, rfl, rfl⟩

end Sys2Proof.Proofs.DecodeEncode
end

section
/-!
Steps of the machine (spec/40_step_cycle.md section 1, spec/60_exceptions.md section 6). What each move of the host and
each turn can do is said once, and the statements about steps go by these cases.
-/
namespace Sys2Proof.Proofs.Steps

open Sys2Proof Sys2Proof.Machine

/-! ### The turn that is next -/

theorem nextTurn_fst (s : State) : s.nextTurn.1 = s.schedule.head?.getD .core := by
  rw [State.nextTurn]
  cases s.schedule <;> rfl

theorem nextTurn_of_coreMoves {s : State} (h : CoreMoves s) : s.nextTurn.1 = .core := by
  rw [nextTurn_fst]
  obtain h | ⟨rest, h⟩ := h <;> rw [h] <;> rfl

/-- The state once its next turn is off the schedule, be there one or not. -/
abbrev spent (s : State) : State := { s with schedule := s.schedule.tail }

theorem step_of_coreMoves {s : State} (h : CoreMoves s) : step s = coreTurn (spent s) := by
  rw [step_core (nextTurn_of_coreMoves h), nextTurn_snd]

theorem step_of_host {s : State} {m : HostMove} {rest : List Turn} (h : s.schedule = .host m :: rest) :
    step s = hostTurn m { s with schedule := rest } := by
  have hm : s.nextTurn.1 = .host m := by rw [nextTurn_fst, h]; rfl
  rw [step_host hm, nextTurn_snd, h]; rfl

theorem head?_eq_of_nextTurn {s : State} {t : Turn} (h : s.nextTurn.1 = t) (ht : t ≠ .core) :
    s.schedule.head? = some t := by
  rw [nextTurn_fst] at h
  cases hs : s.schedule.head? with
  | none => exact absurd (by rw [← h, hs]; rfl) ht
  | some u => rw [← h, hs]; rfl

theorem coreMoves_of_nextTurn {s : State} (h : s.nextTurn.1 = .core) : CoreMoves s := by
  rw [nextTurn_fst] at h
  cases hs : s.schedule with
  | nil => exact .inl hs
  | cons t rest =>
    rw [hs] at h
    exact .inr ⟨rest, by rw [hs]; exact congrArg (· :: rest) h⟩

theorem step_of_execTurn {s : State} (h : ExecTurn s) : step s = coreExec (spent s) := by
  rw [step_of_coreMoves h.turn]
  exact coreTurn_exec (coreRuns_iff.mpr ⟨h.runs, h.noFault⟩) h.noWait h.phase

theorem step_of_drainTurn {s : State} (h : DrainTurn s) :
    step s = .next (coreDrain (spent s)) := by
  rw [step_of_coreMoves h.turn]
  exact coreTurn_drain (coreRuns_iff.mpr ⟨h.runs, h.noFault⟩) h.noWait h.phase

/-! ### CoreExec -/

/-- Settles O6: the fetch joins the two bytes, and the decoder's answer is executed on the latched state. -/
theorem stepExecutesTheDecodedInstruction : Obligations.StepExecutesTheDecodedInstruction :=
  fun _ _ hexec hpc hdec => (step_of_execTurn hexec).trans (coreExec_ok (fetch_ok hpc) hdec)

/-- Settles O7: a fetch above 0x0FFE raises, with pc as the value. -/
theorem fetchAboveMemoryHalts : Obligations.FetchAboveMemoryHalts := fun s hexec hpc => by
  refine ⟨_, (step_of_execTurn hexec).trans (coreExec_fetch_error (fetch_error (Nat.not_le.mpr hpc))), ?_⟩
  simp [HaltsWith, State.raise, addressFault]

/-- Settles O8: by O4 an illegal opcode is a decode error of that opcode, and a legal one decodes. -/
theorem illegalOpcodeHaltsLegalOpcodeExecutes : Obligations.IllegalOpcodeHaltsLegalOpcodeExecutes := by
  rintro s op hexec hpc rfl
  refine ⟨fun hill => ⟨_, ?_, rfl⟩, fun hlegal => ?_⟩
  · exact (step_of_execTurn hexec).trans
      (coreExec_decode_error (fetch_ok hpc) (DecodeEncode.decode_error_of_illegal hill))
  · obtain ⟨i, hi⟩ := DecodeEncode.decode_ok_of_legal hlegal
    exact ⟨i, hi, stepExecutesTheDecodedInstruction s i hexec hpc hi⟩

/-! ### CoreDrain, and turns without effect -/

/-- The youngest event for a key decides it. -/
theorem applyEvents_youngest {keys : Vector Bool 16} {older younger : List KeyEvent} {k : Key} {d : Bool}
    (h : ∀ e ∈ younger, e.key ≠ k) : (applyEvents keys (older ++ ⟨k, d⟩ :: younger))[k] = d := by
  rw [List.append_cons, applyEvents_append, applyEvents_other h, applyEvents_concat]
  simp

/-- Settles O9: the drain applies the queue oldest first, so a key's youngest event stays. -/
theorem drainAppliesEventsYoungestLast : Obligations.DrainAppliesEventsYoungestLast := fun s hdrain => by
  refine ⟨_, step_of_drainTurn hdrain, fun k h => applyEvents_other h, fun older younger k d hEQ h => ?_, rfl⟩
  rw [coreDrain_K, hEQ]
  exact applyEvents_youngest h

/-- Settles O10: with run = 0 or a fault no core transition is enabled, and a wait needs a down event to end. -/
theorem coreWithNothingEnabledStaysAsItIs : Obligations.CoreWithNothingEnabledStaysAsItIs := fun s hturn h => by
  rw [step_of_coreMoves hturn]
  cases hr : s.coreRuns with
  | false => exact coreTurn_halted hr
  | true =>
    obtain ⟨hrun, hfault⟩ := coreRuns_iff.mp hr
    obtain h | h | ⟨hwait, hup⟩ := h
    · exact absurd (hrun.symm.trans h) (by decide)
    · exact absurd hfault h
    · exact (coreTurn_wait (s := spent s) hr hwait).trans (coreWait_stays (s := spent s) (oldestDown_eq_none.mpr hup))

/-! ### What a move of the host can do -/

/-- A move of the host that has a next state, and that state. -/
inductive HostEffect (s : State) : HostMove → State → Prop
  | reset : HostEffect s .reset (hostReset s)
  | loadROM {bytes : List Byte} (unstarted : s.started = false) (fits : bytes.length ≤ 3584) :
      HostEffect s (.loadROM bytes) (s.setMem (s.M.copy 0x200 bytes))
  | start (unstarted : s.started = false) (noFault : s.fault = .none) :
      HostEffect s .start { s with run := true, started := true }
  | stopIdle (idle : (s.run && s.wait) = false) : HostEffect s .stop { s with run := false }
  | stopAbandon (waits : (s.run && s.wait) = true) :
      HostEffect s .stop { s.useFree with run := false, wait := false }
  | stopComplete {k : Key} (waits : (s.run && s.wait) = true) :
      HostEffect s .stop { (s.endWait k).useFree with run := false }
  | enqueue {k : Key} {down : Bool} (room : ∀ d, s.eqDepth = some d → s.EQ.length < d) :
      HostEffect s (.enqueue k down) { s with EQ := s.EQ ++ [⟨k, down⟩] }
  | readFB : HostEffect s .readFB (s.record (.framebuffer s.FB))
  | readStatus : HostEffect s .readStatus (s.record (.status s.run s.fault s.faultInfo s.wait s.ST))

theorem hostTurn_effect {m : HostMove} {s t : State} (h : hostTurn m s = .next t) : HostEffect s m t := by
  cases m with
  | reset => cases h; exact .reset
  | readFB => cases h; exact .readFB
  | readStatus => cases h; exact .readStatus
  | loadROM bytes =>
    simp only [hostTurn, hostLoadROM] at h
    split at h
    · cases h
    · next hs =>
      split at h
      · cases h
      · next hl =>
        cases h
        exact .loadROM (Bool.eq_false_iff.mpr hs) (Nat.not_lt.mp hl)
  | start =>
    simp only [hostTurn, hostStart] at h
    split at h
    · cases h
    · next hs =>
      cases h
      obtain ⟨hunstarted, hfault⟩ := Bool.or_eq_false_iff.mp (Bool.eq_false_iff.mpr hs)
      exact .start hunstarted (bne_eq_false_iff_eq.mp hfault)
  | stop =>
    cases h
    cases hw : s.run && s.wait with
    | false => rw [hostStop_idle hw]; exact .stopIdle hw
    | true =>
      obtain h | ⟨k, h⟩ := hostStop_waiting hw <;> rw [h]
      · exact .stopAbandon hw
      · exact .stopComplete hw
  | enqueue k down =>
    simp only [hostTurn, hostEnqueue] at h
    split at h
    · next hroom => cases h; exact .enqueue (queueHasRoom_iff.mp hroom)
    · cases h

/-! ### What a step can do -/

/-- A core transition with an overlapping read is the core's transition, with the grid recorded after it. -/
theorem coreTurnWithRead_next {s t : State} (h : coreTurnWithRead s = .next t) :
    ∃ v, coreTurn s = .next v ∧ t = v.useFree.record (.framebuffer (tornGrid v.freeCount s.FB v.FB)) := by
  simp only [coreTurnWithRead] at h
  split at h
  · next v hv =>
    cases h
    exact ⟨v, hv, rfl⟩
  · cases h
  · cases h

/-- A step that has a next state, and that state. -/
inductive StepEffect (s : State) : State → Prop
  | core {v : State} (turn : CoreMoves s) (moves : coreTurn (spent s) = .next v) : StepEffect s v
  | coreWithRead {v : State} (turn : s.schedule.head? = some .coreWithRead) (moves : coreTurn (spent s) = .next v) :
      StepEffect s (v.useFree.record (.framebuffer (tornGrid v.freeCount s.FB v.FB)))
  | host {m : HostMove} {t : State} (turn : s.schedule.head? = some (.host m)) (effect : HostEffect (spent s) m t) :
      StepEffect s t

theorem step_effect {s t : State} (h : step s = .next t) : StepEffect s t := by
  obtain ⟨hturn, hs⟩ | ⟨hturn, hs⟩ | ⟨m, hturn, hs⟩ := step_cases s <;> rw [h, nextTurn_snd] at hs
  · exact .core (coreMoves_of_nextTurn hturn) hs.symm
  · obtain ⟨v, hv, rfl⟩ := coreTurnWithRead_next hs.symm
    exact .coreWithRead (head?_eq_of_nextTurn hturn nofun) hv
  · exact .host (head?_eq_of_nextTurn hturn nofun) (hostTurn_effect hs.symm)

/-- Settles O13: every field of the reset state is a literal. -/
theorem resetMoveRestoresEveryField : Obligations.ResetMoveRestoresEveryField := fun s rest h => by
  refine ⟨_, step_of_host h, ?_, rfl, rfl, rfl, ?_, rfl, rfl, ?_, fun _ => rfl, Framebuffer.get_blank, rfl, rfl, rfl,
    rfl, rfl, rfl, rfl, rfl, rfl, rfl⟩ <;> intro r <;> exact Vector.getElem_replicate r.isLt

/-! ### A stopped machine -/

/-- Nothing of the machine has changed but that events may be queued. -/
abbrev Frozen (s t : State) : Prop :=
  RegisterFrameWithoutQueue s t ∧ t.pc = s.pc ∧ t.phase = s.phase ∧ t.DT = s.DT ∧ t.ST = s.ST ∧
    ∃ new : List KeyEvent, t.EQ = s.EQ ++ new

/-- A state that differs at most in the queue, the run flag and the host's own fields, the run flag being as before. -/
theorem frozen_of_eq {s t : State} {new : List KeyEvent} (hrun : t.run = s.run) (hEQ : t.EQ = s.EQ ++ new)
    (h : t = { s with run := t.run, EQ := t.EQ, schedule := t.schedule, reads := t.reads, freeCount := t.freeCount }) :
    Frozen s t := by
  rw [h]
  exact ⟨⟨fun _ _ => rfl, rfl, ⟨rfl, fun _ => rfl⟩, fun _ => rfl, fun _ _ => rfl, fun _ => rfl,
    hrun, rfl, rfl, rfl, rfl, rfl⟩, rfl, rfl, rfl, rfl, new, hEQ⟩

theorem frozen_of_host {m : HostMove} {s t : State} (h : HostEffect (spent s) m t) (hrun : s.run = false)
    (hstarted : s.started = true) (hm : m ≠ .reset) : Frozen s t := by
  have hsame : s.EQ = s.EQ ++ [] := (List.append_nil _).symm
  cases h with
  | reset => exact absurd rfl hm
  | loadROM unstarted | start unstarted => exact absurd (hstarted.symm.trans unstarted) (by decide)
  | stopAbandon waits | stopComplete waits => simp [hrun] at waits
  | stopIdle => exact frozen_of_eq hrun.symm hsame rfl
  | enqueue => exact frozen_of_eq rfl rfl rfl
  | readFB | readStatus => exact frozen_of_eq rfl hsame rfl

/-- Settles O14: the core's turn leaves a halted core as it is, and of the host's moves the load and the start ask for
started = 0. -/
theorem stoppedMachineChangesOnlyByReset : Obligations.StoppedMachineChangesOnlyByReset := by
  intro s t hrun hstarted hreset h
  have hhalted : coreTurn (spent s) = .next (spent s) :=
    coreTurn_halted (Bool.eq_false_iff.mpr fun hr => absurd (hrun.symm.trans (coreRuns_iff.mp hr).1) (by decide))
  have hsame : s.EQ = s.EQ ++ [] := (List.append_nil _).symm
  cases step_effect h with
  | core _ moves =>
    cases hhalted.symm.trans moves
    exact frozen_of_eq rfl hsame rfl
  | coreWithRead _ moves =>
    cases hhalted.symm.trans moves
    exact frozen_of_eq rfl hsame rfl
  | host turn effect =>
    exact frozen_of_host effect hrun hstarted fun hm => hreset (hm ▸ turn)

/-! ### The key-state vector -/

/-- An instruction leaves the key-state vector alone. -/
theorem exec_keys {i : Instr} {s t : State} (h : exec i s = .next t) : t.K = s.K := by
  cases exec_ending h with
  | raises => rfl
  | suspends => rfl
  | completes effect => exact effect.keys

/-- Of the core's transitions only the drain changes K. -/
theorem coreTurn_keys {s t : State} (h : coreTurn s = .next t) (hK : t.K ≠ s.K) :
    s.coreRuns = true ∧ s.wait = false ∧ s.phase = .drain := by
  obtain ⟨-, he⟩ | ⟨-, -, -, he⟩ | ⟨k, -, -, -, he⟩ | ⟨hr, hw, hp, -⟩ | ⟨r, -, -, -, -, he⟩ |
    ⟨op, e, -, -, -, -, -, he⟩ | ⟨op, i, -, -, -, -, -, he⟩ := coreTurn_cases s
  case inr.inr.inr.inl => exact ⟨hr, hw, hp⟩
  case inr.inr.inr.inr.inr.inr => exact absurd (exec_keys (he.symm.trans h)) hK
  all_goals
    cases he.symm.trans h
    exact absurd rfl hK

theorem host_keys {m : HostMove} {s t : State} (h : HostEffect s m t) (hK : t.K ≠ s.K) : m = .reset := by
  cases h
  case reset => rfl
  all_goals exact absurd rfl hK

/-- Settles O20: what changes K is the reset among the host's moves and the drain among the core's transitions. -/
theorem keyStateWrittenOnlyByDrainOrReset : Obligations.KeyStateWrittenOnlyByDrainOrReset := by
  intro s t h hK
  have hcore {v : State} (moves : coreTurn (spent s) = .next v) (hv : v.K ≠ s.K) :
      s.run = true ∧ s.fault = .none ∧ s.wait = false ∧ s.phase = .drain := by
    obtain ⟨hr, hw, hp⟩ := coreTurn_keys moves hv
    obtain ⟨hrun, hfault⟩ := coreRuns_iff.mp hr
    exact ⟨hrun, hfault, hw, hp⟩
  cases step_effect h with
  | core turn moves => exact .inr ⟨.inl turn, hcore moves hK⟩
  | coreWithRead turn moves => exact .inr ⟨.inr turn, hcore moves hK⟩
  | host turn effect => exact .inl (host_keys effect hK ▸ turn)

end Sys2Proof.Proofs.Steps
end

section
/-!
What a single instruction may write (spec/10_state.md, spec/40_step_cycle.md). An instruction raises, suspends or
completes (`Ending`), and what a completion may have written is `Effect`; the return stack and pc, of which `Effect`
says less, get their own cases here.
-/
namespace Sys2Proof.Proofs.Instructions

open Sys2Proof Sys2Proof.Machine

/-! ### Memory, screen, index register and flag -/

/-- Settles O16: only FX55's effect speaks of memory, and its copy writes inside the block alone. -/
theorem memoryWrittenOnlyByStore : Obligations.MemoryWrittenOnlyByStore := by
  intro i s t a h hne
  cases exec_ending h with
  | raises | suspends => exact absurd rfl hne
  | @completes i s u p effect =>
    by_cases hst : ∃ x, i = .stMem x
    · obtain ⟨x, rfl⟩ := hst
      obtain ⟨-, hM⟩ := effect.memoryWritten x rfl
      refine ⟨x, rfl, Decidable.byContradiction fun hout => hne ?_⟩
      rw [State.complete_M, hM, Memory.get_copy_outside]
      rw [State.regsUpTo_length]
      omega
    · rw [State.complete_M, effect.memoryKept fun x hx => hst ⟨x, hx⟩] at hne
      exact absurd rfl hne

/-- Settles O17: only the effects of DXYN and 00E0 speak of the screen, and 00E0 leaves it blank. -/
theorem screenWrittenOnlyByDrawAndClear : Obligations.ScreenWrittenOnlyByDrawAndClear := by
  intro i s t px py h hne
  cases exec_ending h with
  | raises | suspends => exact absurd rfl hne
  | @completes i s u p effect =>
    by_cases hcls : i = .cls
    · exact .inl ⟨hcls, by rw [State.complete_FB, effect.screenCleared hcls, Framebuffer.get_blank]⟩
    · refine .inr (Classical.byContradiction fun hdrw => ?_)
      rw [State.complete_FB, effect.screenKept (fun x y n hi => hdrw ⟨x, y, n, hi⟩) hcls] at hne
      exact hne rfl

/-- An instruction other than ANNN and FX1E leaves I alone. -/
theorem exec_index {i : Instr} {s t : State} (h : exec i s = .next t) (hld : ∀ n, i ≠ .ldI n)
    (hadd : ∀ x, i ≠ .addIVx x) : t.I = s.I := by
  cases exec_ending h with
  | raises | suspends => rfl
  | completes effect => exact effect.indexKept hld hadd

/-- Settles O19: a residue modulo 0xFFF is at most 0xFFE. -/
theorem indexWrittenOnlyByLoadAndAdd : Obligations.IndexWrittenOnlyByLoadAndAdd := by
  intro i s t h hne
  by_cases hld : ∃ n, i = .ldI n
  · obtain ⟨n, rfl⟩ := hld
    cases h
    exact .inl ⟨n, rfl, rfl⟩
  · by_cases hadd : ∃ x, i = .addIVx x
    · obtain ⟨x, rfl⟩ := hadd
      cases h
      refine .inr ⟨x, rfl, ?_⟩
      rw [State.complete_I, State.setI_I, indexResult_toNat]
      omega
    · exact absurd (exec_index h (fun n hi => hld ⟨n, hi⟩) fun x hi => hadd ⟨x, hi⟩) hne

/-- Settles O21: every other instruction's effect keeps VF. -/
theorem flagRegisterWriters : Obligations.FlagRegisterWriters := by
  intro i s t h hne
  refine Decidable.byContradiction fun hno => ?_
  rw [not_or, Bool.not_eq_true] at hno
  cases exec_ending h with
  | raises | suspends => exact hne rfl
  | completes effect => exact hne (effect.flagKept hno.1 hno.2)

/-! ### Endings -/

/-- Settles O22: of the three endings only the raising one changes `fault`. -/
theorem faultingInstructionChangesNothingElse : Obligations.FaultingInstructionChangesNothingElse := by
  intro i s t hs h ht
  cases exec_ending h with
  | raises => rfl
  | suspends => exact absurd hs ht
  | completes effect => exact absurd (effect.fault.trans hs) ht

/-- Settles O24: a completion counts each timer, as the instruction's own effect left it. -/
theorem timersCountOncePerCompletedInstruction : Obligations.TimersCountOncePerCompletedInstruction := by
  intro i s t hs h ht hkey
  cases exec_ending h with
  | raises cause => exact absurd ht cause
  | suspends => exact absurd rfl (hkey _)
  | completes effect =>
    simp only [State.complete_DT, State.complete_ST, countDown_toNat]
    exact ⟨fun x hi => by rw [effect.delayWritten x hi], fun hi => by rw [effect.delayKept hi],
      fun x hi => by rw [effect.soundWritten x hi], fun hi => by rw [effect.soundKept hi]⟩

/-- Settles O23: where an instruction's check can fail both answers are next states. -/
theorem everyInstructionAnswersANextState : Obligations.EveryInstructionAnswersANextState := by
  intro i s
  cases i
  case ret =>
    by_cases hd : s.sp.val = 0
    · exact ⟨_, exec_ret_empty hd⟩
    · exact ⟨_, exec_ret_ok hd⟩
  case call n =>
    by_cases hd : s.sp.val < 16
    · exact ⟨_, exec_call_ok n hd⟩
    · exact ⟨_, exec_call_full n hd⟩
  case drw x y n =>
    by_cases hd : s.I.toNat + n.toNat ≤ 4096
    · exact ⟨_, exec_drw_ok x y n hd⟩
    · exact ⟨_, exec_drw_fault x y n (by have := s.I.isLt; omega) hd⟩
  case skp x =>
    by_cases hd : (s.reg x).toNat < 16
    · exact ⟨_, exec_skp_ok x hd⟩
    · exact ⟨_, exec_skp_fault x hd⟩
  case sknp x =>
    by_cases hd : (s.reg x).toNat < 16
    · exact ⟨_, exec_sknp_ok x hd⟩
    · exact ⟨_, exec_sknp_fault x hd⟩
  case stMem x =>
    by_cases hd : s.I.toNat + x.val < 4096
    · exact ⟨_, exec_stMem_ok x hd⟩
    · exact ⟨_, exec_stMem_fault x hd⟩
  case ldMem x =>
    by_cases hd : s.I.toNat + x.val < 4096
    · exact ⟨_, exec_ldMem_ok x hd⟩
    · exact ⟨_, exec_ldMem_fault x hd⟩
  all_goals exact ⟨_, rfl⟩

/-! ### The return stack -/

/-- What a push leaves of each entry. -/
theorem getElem_push (s : State) (w : Word) (h : s.sp.val < 16) (d : Fin 16) :
    (s.stack.set s.sp.val w h)[d] = if d.val = s.sp.val then w else s.stack[d] := by
  rw [Fin.getElem_fin, Vector.getElem_set]
  simp only [eq_comm (a := s.sp.val), Fin.getElem_fin]

/-- What an instruction can do to the stack: nothing, the push of CALL, or the pop of RET. -/
theorem exec_stack_cases {i : Instr} {s t : State} (h : exec i s = .next t) :
    SameStack s t ∨
    (∃ nnn, i = .call nnn ∧ t.sp.val = s.sp.val + 1 ∧
      ∀ d : Fin 16, t.stack[d] = if d.val = s.sp.val then s.pc else s.stack[d]) ∨
    (i = .ret ∧ t.sp.val + 1 = s.sp.val ∧ ∀ d : Fin 16, t.stack[d] = s.stack[d]) := by
  by_cases hcall : ∃ n, i = .call n
  · obtain ⟨n, rfl⟩ := hcall
    by_cases hd : s.sp.val < 16
    · rw [exec_call_ok n hd] at h
      cases h
      exact .inr (.inl ⟨n, rfl, rfl, getElem_push s s.pc hd⟩)
    · rw [exec_call_full n hd] at h
      cases h
      exact .inl ⟨rfl, fun _ => rfl⟩
  by_cases hret : i = .ret
  · subst hret
    by_cases hd : s.sp.val = 0
    · rw [exec_ret_empty hd] at h
      cases h
      exact .inl ⟨rfl, fun _ => rfl⟩
    · rw [exec_ret_ok hd] at h
      cases h
      exact .inr (.inr ⟨rfl, Nat.sub_add_cancel (Nat.pos_of_ne_zero hd), fun _ => rfl⟩)
  · refine .inl ?_
    cases exec_ending h with
    | raises | suspends => exact ⟨rfl, fun _ => rfl⟩
    | completes effect =>
      obtain ⟨hsp, hstack⟩ := effect.stackKept (fun n hi => hcall ⟨n, hi⟩) hret
      exact ⟨hsp, fun d => by rw [State.complete_stack, hstack]⟩

/-- Settles O18, by the three cases of the stack. -/
theorem stackWrittenOnlyByCallAndReturn : Obligations.StackWrittenOnlyByCallAndReturn := by
  intro i s t h hne
  obtain hsame | ⟨nnn, hi, hsp, hstack⟩ | hret := exec_stack_cases h
  · exact absurd hsame hne
  · exact .inl ⟨nnn, hi, hsp, fun d hd => by rw [hstack, if_neg hd]⟩
  · exact .inr hret

/-! ### Where pc goes -/

/-- Every pc that an instruction can leave. -/
inductive NextPc (s : State) : Word → Prop
  | stays : NextPc s s.pc
  | next : NextPc s s.pcNext
  | skip (cond : Bool) : NextPc s (s.pcSkip cond)
  | jump (nnn : Addr) : NextPc s (target nnn)
  | jumpV0 (nnn : Addr) : NextPc s (targetPlusV0 s nnn)
  | popped {d : Fin 16} (inUse : d.val < s.sp.val) : NextPc s (s.stack[d] + 2#16)

theorem exec_nextPc {i : Instr} {s t : State} (h : exec i s = .next t) : NextPc s t.pc := by
  cases i
  case ret =>
    by_cases hd : s.sp.val = 0
    · rw [exec_ret_empty hd] at h; cases h; exact .stays
    · rw [exec_ret_ok hd] at h
      cases h
      have hlt : s.sp.val - 1 < 16 := by omega
      rw [State.complete_pc, State.stackAt_of_lt hlt]
      exact .popped (d := ⟨s.sp.val - 1, hlt⟩) (Nat.sub_lt (Nat.pos_of_ne_zero hd) Nat.one_pos)
  case call n =>
    by_cases hd : s.sp.val < 16
    · rw [exec_call_ok n hd] at h; cases h; exact .jump n
    · rw [exec_call_full n hd] at h; cases h; exact .stays
  case jp n => cases h; exact .jump n
  case jpV0 n => cases h; exact .jumpV0 n
  case seImm | sneImm | seReg | sneReg => cases h; exact .skip _
  case skp x =>
    by_cases hd : (s.reg x).toNat < 16
    · rw [exec_skp_ok x hd] at h; cases h; exact .skip _
    · rw [exec_skp_fault x hd] at h; cases h; exact .stays
  case sknp x =>
    by_cases hd : (s.reg x).toNat < 16
    · rw [exec_sknp_ok x hd] at h; cases h; exact .skip _
    · rw [exec_sknp_fault x hd] at h; cases h; exact .stays
  case drw x y n =>
    by_cases hd : s.I.toNat + n.toNat ≤ 4096
    · rw [exec_drw_ok x y n hd] at h; cases h; exact .next
    · rw [exec_drw_fault x y n (by have := s.I.isLt; omega) hd] at h; cases h; exact .stays
  case stMem x =>
    by_cases hd : s.I.toNat + x.val < 4096
    · rw [exec_stMem_ok x hd] at h; cases h; exact .next
    · rw [exec_stMem_fault x hd] at h; cases h; exact .stays
  case ldMem x =>
    by_cases hd : s.I.toNat + x.val < 4096
    · rw [exec_ldMem_ok x hd] at h; cases h; exact .next
    · rw [exec_ldMem_fault x hd] at h; cases h; exact .stays
  case ldVxK => cases h; exact .stays
  all_goals cases h; exact .next

end Sys2Proof.Proofs.Instructions
end

section
/-!
The invariant of spec/10_state.md R39 (`State.Inv`) is kept by every step: by each way a core transition can go and by
each move of the host.
-/
namespace Sys2Proof.Proofs.Invariant

open Sys2Proof Sys2Proof.Machine Sys2Proof.Proofs.Steps Sys2Proof.Proofs.Instructions

/-! ### The reset state, and fields the invariant does not read -/

/-- The invariant of the reset state does not depend on the queue's capacity, whose queue is empty. -/
theorem inv_hostReset (s : State) : (hostReset s).Inv where
  memory := Memory.wf_nil
  pcRange := show (0x0200#16).toNat ≤ 0x10FE by decide
  stackRange d hd := absurd hd (Nat.not_lt_zero d.val)
  faultHalts _ := rfl
  noFaultNoInfo _ := rfl
  waitRuns := nofun
  runStarted := nofun
  waitLatch := nofun
  queueFits _ _ := Nat.zero_le _

/-- Settles O11: the reset state is its own reset. -/
theorem resetStateMeetsTheStateBounds : Obligations.ResetStateMeetsTheStateBounds :=
  inv_hostReset State.reset

/-- The host's own fields and the count of free values play no part. -/
theorem inv_congr_host {s t : State} (h : s.Inv)
    (ht : t = { s with schedule := t.schedule, reads := t.reads, freeCount := t.freeCount }) : t.Inv := by
  rw [ht]
  exact ⟨h.memory, h.pcRange, h.stackRange, h.faultHalts, h.noFaultNoInfo, h.waitRuns, h.runStarted, h.waitLatch,
    h.queueFits⟩

/-- A shorter queue fits as well; the key-state vector and the phase play no part. -/
theorem inv_drain {s : State} (h : s.Inv) : (coreDrain s).Inv :=
  ⟨h.memory, h.pcRange, h.stackRange, h.faultHalts, h.noFaultNoInfo, h.waitRuns, h.runStarted, h.waitLatch,
    fun _ _ => Nat.zero_le _⟩

/-! ### A core that does not wait -/

theorem inv_latch {s : State} (h : s.Inv) (hw : s.wait = false) (op : Word) : (s.latch op).Inv :=
  ⟨h.memory, h.pcRange, h.stackRange, h.faultHalts, h.noFaultNoInfo, h.waitRuns, h.runStarted,
    fun hwait => absurd (hw.symm.trans hwait) (by decide), h.queueFits⟩

theorem inv_raise {s : State} (h : s.Inv) (hw : s.wait = false) {r : Raised} (hr : r.cause ≠ .none) :
    (s.raise r).Inv :=
  ⟨h.memory, h.pcRange, h.stackRange, fun _ => rfl, fun hnone => absurd hnone hr,
    fun hwait => absurd (hw.symm.trans hwait) (by decide), nofun,
    fun hwait => absurd (hw.symm.trans hwait) (by decide), h.queueFits⟩

/-- The one fault of a fetch is the address fault. -/
theorem fetch_error_cause {s : State} {r : Raised} (h : fetch s = .error r) : r.cause ≠ .none := by
  by_cases hpc : s.pc.toNat ≤ 0x0FFE
  · exact absurd ((fetch_ok hpc).symm.trans h) nofun
  · cases (fetch_error hpc).symm.trans h
    exact nofun

theorem pc_le_of_fetch {s : State} {op : Word} (h : fetch s = .ok op) : s.pc.toNat ≤ 0x0FFE := by
  exact Decidable.byContradiction fun hpc => absurd ((fetch_error hpc).symm.trans h) nofun

/-! ### One instruction -/

/-- Adding a small offset to a fetched pc does not wrap. -/
theorem toNat_add_le {p : Word} (hp : p.toNat ≤ 0x0FFE) {n : Word} (hn : n.toNat ≤ 4) : (p + n).toNat ≤ 0x10FE := by
  rw [BitVec.toNat_add]
  omega

/-- From a fetched pc every pc an instruction can leave lies within the bound (R23). -/
theorem nextPc_le {s : State} {p : Word} (hp : NextPc s p) (hpc : s.pc.toNat ≤ 0x0FFE)
    (hstack : ∀ d : Fin 16, d.val < s.sp.val → s.stack[d].toNat ≤ 0x0FFE) : p.toNat ≤ 0x10FE := by
  cases hp with
  | stays => omega
  | next => exact toNat_add_le hpc (by decide)
  | skip cond =>
    cases cond
    · exact toNat_add_le hpc (by decide)
    · exact toNat_add_le hpc (by decide)
  | jump nnn =>
    have := nnn.isLt
    rw [target_toNat]
    omega
  | jumpV0 nnn =>
    have := nnn.isLt
    have := (s.reg 0).isLt
    rw [targetPlusV0_toNat]
    omega
  | popped inUse => exact toNat_add_le (hstack _ inUse) (by decide)

/-- From a fetched pc an instruction stacks no other address than that pc. -/
theorem exec_stackRange {i : Instr} {s t : State} (h : exec i s = .next t) (hpc : s.pc.toNat ≤ 0x0FFE)
    (hstack : ∀ d : Fin 16, d.val < s.sp.val → s.stack[d].toNat ≤ 0x0FFE) :
    ∀ d : Fin 16, d.val < t.sp.val → t.stack[d].toNat ≤ 0x0FFE := by
  intro d hd
  obtain ⟨hsp, hsame⟩ | ⟨_, -, hsp, hpush⟩ | ⟨-, hsp, hsame⟩ := exec_stack_cases h
  · rw [hsame]
    exact hstack d (hsp ▸ hd)
  · rw [hpush]
    split
    · exact hpc
    · exact hstack d (by omega)
  · rw [hsame]
    exact hstack d (by omega)

theorem effect_memory_wf {i : Instr} {s u : State} (effect : Effect i s u) (hM : s.M.wf) : u.M.wf := by
  by_cases hst : ∃ x, i = .stMem x
  · obtain ⟨x, rfl⟩ := hst
    obtain ⟨hfit, hu⟩ := effect.memoryWritten x rfl
    rw [hu]
    exact Memory.wf_copy hM (by rw [State.regsUpTo_length]; exact hfit)
  · rw [effect.memoryKept fun x hx => hst ⟨x, hx⟩]
    exact hM

/-- The instruction decoded from the latch, executed by a running core. -/
theorem inv_exec {i : Instr} {s t : State} (h : s.Inv) (hruns : s.coreRuns = true) (hw : s.wait = false)
    (hfetch : fetch s = .ok s.IR) (hdec : decode s.IR = .ok i) (ht : Machine.exec i s = .next t) : t.Inv := by
  have hpc := pc_le_of_fetch hfetch
  have hpcRange := nextPc_le (exec_nextPc ht) hpc h.stackRange
  have hstackRange := exec_stackRange ht hpc h.stackRange
  cases exec_ending ht with
  | raises cause => exact inv_raise h hw cause
  | suspends =>
    exact ⟨h.memory, hpcRange, hstackRange, h.faultHalts, h.noFaultNoInfo, fun _ => coreRuns_iff.mp hruns,
      h.runStarted, fun _ => ⟨hfetch, _, hdec⟩, fun _ _ => Nat.zero_le _⟩
  | @completes _ _ u p effect =>
    have hwait : (u.complete p).wait ≠ true := by simp [effect.wait, hw]
    refine ⟨effect_memory_wf (u := u) effect h.memory, hpcRange, hstackRange, ?_, ?_, fun hu => absurd hu hwait, ?_,
      fun hu => absurd hu hwait, ?_⟩
    · simpa [effect.fault, effect.run] using h.faultHalts
    · simpa [effect.fault, effect.faultInfo] using h.noFaultNoInfo
    · simpa [effect.run, effect.started] using h.runStarted
    · simpa [effect.eqDepth, effect.queue] using h.queueFits

/-! ### The core's turn -/

/-- Ending a wait advances pc from the FX0A that was fetched there. -/
theorem inv_endWait {s : State} (h : s.Inv) (hw : s.wait = true) (k : Key) : (s.endWait k).Inv := by
  have hpc := pc_le_of_fetch (h.waitLatch hw).1
  exact ⟨h.memory, toNat_add_le hpc (by decide), h.stackRange, h.faultHalts, h.noFaultNoInfo, nofun,
    h.runStarted, nofun, h.queueFits⟩

theorem inv_emptyQueue {s : State} (h : s.Inv) : State.Inv { s with EQ := [] } :=
  ⟨h.memory, h.pcRange, h.stackRange, h.faultHalts, h.noFaultNoInfo, h.waitRuns, h.runStarted, h.waitLatch,
    fun _ _ => Nat.zero_le _⟩

theorem inv_coreTurn {s t : State} (h : s.Inv) (ht : Machine.coreTurn s = .next t) : t.Inv := by
  obtain ⟨-, he⟩ | ⟨-, -, -, he⟩ | ⟨k, -, hw, -, he⟩ | ⟨-, -, -, he⟩ | ⟨r, -, hw, -, hf, he⟩ |
    ⟨op, e, -, hw, -, -, -, he⟩ | ⟨op, i, hr, hw, -, hf, hd, he⟩ := coreTurn_cases s
  case inr.inr.inr.inr.inr.inr => exact inv_exec (inv_latch h hw op) hr hw hf hd (he.symm.trans ht)
  all_goals cases he.symm.trans ht
  · exact h
  · exact h
  · exact inv_emptyQueue (inv_endWait h hw k)
  · exact inv_drain h
  · exact inv_raise h hw (fetch_error_cause hf)
  · exact inv_raise (inv_latch h hw op) hw nofun

/-! ### The host's moves -/

/-- A core that was not started does not wait. -/
theorem wait_of_unstarted {s : State} (h : s.Inv) (hs : s.started = false) : s.wait = false := by
  refine Bool.eq_false_iff.mpr fun hw => ?_
  exact absurd (hs.symm.trans (h.runStarted (h.waitRuns hw).1)) (by decide)

/-- A core that is stopped, its wait having ended. -/
theorem inv_stopped {s t : State} (h : s.Inv) (hw : t.wait = false)
    (ht : t = { s with run := false, wait := t.wait, freeCount := t.freeCount }) : t.Inv := by
  rw [hw] at ht
  rw [ht]
  exact ⟨h.memory, h.pcRange, h.stackRange, fun _ => rfl, h.noFaultNoInfo, nofun, nofun,
    nofun, h.queueFits⟩

theorem inv_host {m : HostMove} {s t : State} (h : s.Inv) (ht : HostEffect s m t) : t.Inv := by
  cases ht with
  | reset => exact inv_hostReset s
  | loadROM unstarted fits =>
    have hw := wait_of_unstarted h unstarted
    exact ⟨Memory.wf_copy h.memory (by simp only [Config.memSize]; omega), h.pcRange, h.stackRange, h.faultHalts,
      h.noFaultNoInfo, h.waitRuns, h.runStarted, fun hu => absurd (hw.symm.trans hu) (by decide), h.queueFits⟩
  | start unstarted noFault =>
    have hw := wait_of_unstarted h unstarted
    exact ⟨h.memory, h.pcRange, h.stackRange, fun hf => absurd noFault hf, h.noFaultNoInfo,
      fun hu => absurd (hw.symm.trans hu) (by decide), fun _ => rfl,
      fun hu => absurd (hw.symm.trans hu) (by decide), h.queueFits⟩
  | stopIdle idle =>
    have hw : s.wait = false := Bool.eq_false_iff.mpr fun hw =>
      absurd (idle.symm.trans (Bool.and_eq_true_iff.mpr ⟨(h.waitRuns hw).1, hw⟩)) (by decide)
    exact inv_stopped h hw rfl
  | stopAbandon => exact inv_stopped h rfl rfl
  | @stopComplete k waits =>
    exact inv_stopped (inv_endWait h (Bool.and_eq_true_iff.mp waits).2 k) rfl rfl
  | enqueue room =>
    exact ⟨h.memory, h.pcRange, h.stackRange, h.faultHalts, h.noFaultNoInfo, h.waitRuns, h.runStarted, h.waitLatch,
      fun d hd => by rw [List.length_append]; exact room d hd⟩
  | readFB | readStatus => exact inv_congr_host h rfl

/-! ### Every step -/

theorem coreTurn_eqDepth {s t : State} (ht : Machine.coreTurn s = .next t) : t.eqDepth = s.eqDepth := by
  obtain ⟨-, he⟩ | ⟨-, -, -, he⟩ | ⟨k, -, -, -, he⟩ | ⟨-, -, -, he⟩ | ⟨r, -, -, -, -, he⟩ | ⟨op, e, -, -, -, -, -, he⟩ |
    ⟨op, i, -, -, -, -, -, he⟩ := coreTurn_cases s
  case inr.inr.inr.inr.inr.inr =>
    cases exec_ending (he.symm.trans ht) with
    | raises | suspends => rfl
    | completes effect => exact effect.eqDepth
  all_goals
    cases he.symm.trans ht
    rfl

theorem host_eqDepth {m : HostMove} {s t : State} (h : HostEffect s m t) : t.eqDepth = s.eqDepth := by
  cases h <;> rfl

/-- Settles O12: a step is a core transition or a move of the host, from a state one turn shorter. -/
theorem everyStepKeepsTheStateBounds : Obligations.EveryStepKeepsTheStateBounds := by
  intro s t h hstep
  have hspent : (spent s).Inv := inv_congr_host h rfl
  cases step_effect hstep with
  | core _ moves => exact ⟨inv_coreTurn hspent moves, coreTurn_eqDepth (s := spent s) moves⟩
  | coreWithRead _ moves =>
    have hdepth := coreTurn_eqDepth (s := spent s) moves
    exact ⟨inv_congr_host (inv_coreTurn hspent moves) rfl, hdepth⟩
  | host _ effect => exact ⟨inv_host hspent effect, host_eqDepth (s := spent s) effect⟩

end Sys2Proof.Proofs.Invariant
end

section
/-!
The instructions of spec/42_alu.md that write a flag, and the random one (R166 to R173). An instruction with a flag
writes VF first and V[X] second, so for X = 15 the result stays (R172); what both writes leave is one lemma over the
two bytes.
-/
namespace Sys2Proof.Proofs.Flags

open Sys2Proof Sys2Proof.Machine

/-! ### A flag and a result written -/

theorem reg_setFlag_setReg_self (s : State) (x : Reg) (f r : Byte) (p : Word) :
    (((s.setReg vf f).setReg x r).complete p).reg x = r :=
  Alu.reg_complete_setReg_self _ x r p

theorem reg_setFlag_setReg_flag (s : State) {x : Reg} (f r : Byte) (p : Word) (hx : x ≠ 15) :
    (((s.setReg vf f).setReg x r).complete p).reg 15 = f := by
  rw [State.reg_complete, State.reg_setReg_of_ne _ _ hx]
  exact State.reg_setReg_self s vf f

/-- What a completion after a flag and a result leaves, whatever the two bytes. -/
theorem complete_setFlag_setReg_results (s : State) (x : Reg) (f r : Byte) :
    RegisterFrame [x, 15] s (((s.setReg vf f).setReg x r).complete s.pcNext) ∧
      Advances (s.pc + 2#16) (((s.setReg vf f).setReg x r).complete s.pcNext) ∧
      TimersCounted s (((s.setReg vf f).setReg x r).complete s.pcNext) :=
  ⟨.complete_setFlag_setReg s x f r _, .complete _ _, .complete rfl rfl _⟩

/-- The same for the result written to VF itself. -/
theorem complete_flag_only_results (s : State) (f r : Byte) :
    RegisterFrame [15] s (((s.setReg vf f).setReg 15 r).complete s.pcNext) ∧
      Advances (s.pc + 2#16) (((s.setReg vf f).setReg 15 r).complete s.pcNext) ∧
      TimersCounted s (((s.setReg vf f).setReg 15 r).complete s.pcNext) :=
  ⟨.complete_flag_only s f r _, .complete _ _, .complete rfl rfl _⟩

/-! ### Sums and differences -/

/-- Settles O29: the carry is that of the exact sum, whose residue is the result. -/
theorem addRegistersResult : Obligations.AddRegistersResult := fun x y s =>
  ⟨_, exec_addReg s x y, by rw [reg_setFlag_setReg_self, sumByte_toNat],
    fun hx => by rw [reg_setFlag_setReg_flag s _ _ _ hx, carryFlag_eq], complete_setFlag_setReg_results s x _ _⟩

/-- The difference as an integer modulo 256. -/
theorem diffByte_toInt_mod (a b : Byte) : ((diffByte a b).toNat : Int) = (a.toNat - b.toNat : Int) % 256 := by
  have := a.isLt
  have := b.isLt
  rw [diffByte_toNat]
  omega

/-- Settles O30: SUB and SUBN are one law with the operands exchanged. -/
theorem subtractResults : Obligations.SubtractResults := fun x y s =>
  ⟨⟨_, exec_sub s x y, by rw [reg_setFlag_setReg_self, diffByte_toInt_mod],
      fun hx => by rw [reg_setFlag_setReg_flag s _ _ _ hx, notBorrowFlag_eq], complete_setFlag_setReg_results s x _ _⟩,
    ⟨_, exec_subn s x y, by rw [reg_setFlag_setReg_self, diffByte_toInt_mod],
      fun hx => by rw [reg_setFlag_setReg_flag s _ _ _ hx, notBorrowFlag_eq], complete_setFlag_setReg_results s x _ _⟩⟩

/-! ### Shifts -/

theorem shiftedRight_toNat (a : Byte) : (shiftedRight a).toNat = a.toNat / 2 := by
  rw [shiftedRight, BitVec.toNat_ushiftRight, Nat.shiftRight_eq_div_pow, Nat.pow_one]

theorem shiftedLeft_toNat (a : Byte) : (shiftedLeft a).toNat = a.toNat * 2 % 256 := by
  rw [shiftedLeft, BitVec.toNat_shiftLeft, Nat.shiftLeft_eq, Nat.pow_one]

theorem flag_toNat (b : Bool) : (flag b).toNat = b.toNat := by
  cases b <;> rfl

theorem lowBitFlag_toNat (a : Byte) : (lowBitFlag a).toNat = a.toNat % 2 := by
  rw [lowBitFlag, flag_toNat, BitVec.getLsbD, Nat.toNat_testBit, Nat.pow_zero, Nat.div_one]

theorem highBitFlag_toNat (a : Byte) : (highBitFlag a).toNat = a.toNat / 128 := by
  have := a.isLt
  rw [highBitFlag, flag_toNat, BitVec.getLsbD, Nat.toNat_testBit]
  omega

/-- For X other than 15 the flag written first is not what is shifted. -/
theorem reg_setFlag_of_ne (s : State) {x : Reg} (f : Byte) (hx : x ≠ 15) : (s.setReg vf f).reg x = s.reg x :=
  State.reg_setReg_of_ne s f hx.symm

/-- Settles O31: the result shifts the old V[X], and the flag is the bit that falls out. -/
theorem shiftResults : Obligations.ShiftResults := fun x y s hx =>
  ⟨⟨_, exec_shr s x y, by rw [reg_setFlag_setReg_self, reg_setFlag_of_ne s _ hx, shiftedRight_toNat],
      by rw [reg_setFlag_setReg_flag s _ _ _ hx, lowBitFlag_toNat], complete_setFlag_setReg_results s x _ _⟩,
    ⟨_, exec_shl s x y, by rw [reg_setFlag_setReg_self, reg_setFlag_of_ne s _ hx, shiftedLeft_toNat],
      by rw [reg_setFlag_setReg_flag s _ _ _ hx, highBitFlag_toNat], complete_setFlag_setReg_results s x _ _⟩⟩

/-! ### VF as the destination -/

/-- With X = 15 the shift reads the flag just written, and shifts its one bit out. -/
theorem shiftedRight_flag (b : Bool) : shiftedRight (flag b) = 0x00#8 := by
  cases b <;> rfl

theorem shiftedLeft_highBitFlag (a : Byte) :
    shiftedLeft (highBitFlag a) = if a.toNat ≥ 128 then 0x02#8 else 0x00#8 := by
  have := a.isLt
  apply BitVec.eq_of_toNat_eq
  rw [shiftedLeft_toNat, highBitFlag_toNat]
  split <;> simp only [BitVec.toNat_ofNat] <;> omega

/-- Settles O32: the result is written last, so it is what VF holds. -/
theorem flagRegisterAsDestination : Obligations.FlagRegisterAsDestination := fun y s => by
  have hself (f : Byte) : (s.setReg vf f).reg 15 = f := State.reg_setReg_self s vf f
  refine ⟨⟨_, exec_addReg s 15 y, ?_, complete_flag_only_results s _ _⟩,
    ⟨_, exec_sub s 15 y, ?_, complete_flag_only_results s _ _⟩,
    ⟨_, exec_subn s 15 y, ?_, complete_flag_only_results s _ _⟩,
    ⟨_, exec_shr s 15 y, ?_, complete_flag_only_results s _ _⟩,
    ⟨_, exec_shl s 15 y, ?_, complete_flag_only_results s _ _⟩⟩ <;> rw [reg_setFlag_setReg_self]
  · rw [sumByte_eq_add]
  · rw [diffByte_eq_sub]
  · rw [diffByte_eq_sub]
  · rw [hself, lowBitFlag, shiftedRight_flag]
  · rw [hself, shiftedLeft_highBitFlag]

/-! ### The random instruction -/

/-- Settles O33: the draw lies in 0..NN, and using a free value changes nothing that the frame speaks of. -/
theorem randomValueWithinBound : Obligations.RandomValueWithinBound := fun x nn s => by
  obtain ⟨hframe, hpc, htimers⟩ := Alu.complete_setReg_results s.useFree x
    (BitVec.ofNat 8 (Config.rngDraw s.freeCount nn).val)
  refine ⟨_, exec_rnd s x nn, ?_, ?_, hpc, htimers⟩
  · rw [Alu.reg_complete_setReg_self]
    exact rngDraw_le s.freeCount nn
  · exact ⟨hframe.regs, hframe.index, hframe.stack, hframe.memory, hframe.screen,
      hframe.common.keypad, hframe.common.status, hframe.common.host⟩

end Sys2Proof.Proofs.Flags
end

section
/-!
Jumps, calls and returns (R140 to R143, spec/41_control_flow.md). CALL pushes its own address, and RET resumes after
the address it pops (C2), so a return that matches a call goes on after the call.
-/
namespace Sys2Proof.Proofs.Calls

open Sys2Proof Sys2Proof.Machine

/-! ### Jumps -/

/-- Settles O34: both are bare completions, and neither sum of 12 and 8 bits overflows 16. -/
theorem jumpResults : Obligations.JumpResults := fun nnn s =>
  ⟨⟨_, exec_jp s nnn, target_toNat nnn, rfl, .complete s _, .complete rfl rfl _⟩,
    ⟨_, exec_jpV0 s nnn, targetPlusV0_toNat s nnn, rfl, .complete s _, .complete rfl rfl _⟩⟩

/-! ### Calls and returns -/

/-- What a completion that changes only the return stack leaves. -/
theorem complete_stack_results (s : State) (sp : Fin 17) (stack : Vector Word 16) (p : Word) :
    (State.complete { s with sp := sp, stack := stack } p).phase = .drain ∧
      SameRegsBut [] s (State.complete { s with sp := sp, stack := stack } p) ∧
      (State.complete { s with sp := sp, stack := stack } p).I = s.I ∧
      SameMemory s (State.complete { s with sp := sp, stack := stack } p) ∧
      SameScreen s (State.complete { s with sp := sp, stack := stack } p) ∧
      CommonFrame s (State.complete { s with sp := sp, stack := stack } p) ∧
      TimersCounted s (State.complete { s with sp := sp, stack := stack } p) :=
  ⟨rfl, fun _ _ => rfl, rfl, fun _ => rfl, fun _ _ => rfl, .of_eq rfl rfl rfl rfl rfl rfl rfl rfl rfl rfl rfl,
    .complete rfl rfl _⟩

/-- Settles O35: a push writes the entry at the old depth and no other. -/
theorem callPushesItsOwnAddress : Obligations.CallPushesItsOwnAddress := fun nnn s =>
  ⟨fun hd => ⟨_, exec_call_ok nnn hd, rfl, Instructions.getElem_push s s.pc hd, target_toNat nnn,
      complete_stack_results s _ _ _⟩,
    fun hd => ⟨_, exec_call_full nnn (by omega), rfl⟩⟩

/-- A return to the address in the youngest entry in use. -/
theorem exec_ret_of_depth {s : State} {d : Fin 16} (hd : s.sp.val = d.val + 1) :
    exec .ret s = .next (State.complete { s with sp := ⟨d.val, by omega⟩ } (s.stack[d] + 2#16)) := by
  have hpos : s.sp.val ≠ 0 := by omega
  have hlt : s.sp.val - 1 < 16 := by omega
  have hsub : s.sp.val - 1 = d.val := by omega
  rw [exec_ret_ok hpos, State.stackAt_of_lt hlt]
  simp only [hsub, Fin.getElem_fin]

/-- Settles O36: a pop takes the youngest entry in use and leaves its bits. -/
theorem returnResumesAfterTheCall : Obligations.ReturnResumesAfterTheCall := fun s =>
  ⟨fun _ hd => ⟨_, exec_ret_of_depth hd, rfl, rfl, fun _ => rfl, complete_stack_results s _ _ _⟩,
    fun hd => ⟨_, exec_ret_empty hd, rfl⟩⟩

/-- Settles O37: by O35 the entry that the return pops holds the call's pc, and the entries below it are as before. -/
theorem callThenMatchingReturn : Obligations.CallThenMatchingReturn := by
  intro nnn s hs
  obtain ⟨t, ht, hsp, hstack, -⟩ := (callPushesItsOwnAddress nnn s).1 hs
  refine ⟨t, ht, fun u husp hu => ?_⟩
  have hdepth : u.sp.val = (⟨s.sp.val, hs⟩ : Fin 16).val + 1 := husp ▸ hsp
  obtain ⟨w, hw, hwsp, hwpc, hwstack, -⟩ := (returnResumesAfterTheCall u).1 ⟨s.sp.val, hs⟩ hdepth
  refine ⟨w, hw, ?_, Fin.ext hwsp, fun d hd => ?_⟩
  · rw [hwpc, hu _ (by rw [hsp]; exact Nat.lt_succ_self _), hstack, if_pos rfl]
  · rw [hwstack, hu d (by omega), hstack, if_neg (by omega)]

end Sys2Proof.Proofs.Calls
end

section
/-!
FX1E and the block transfers (R191 to R193, R246, spec/43_index_memory.md). A block that lies inside memory is copied
to memory, or read, whole; one that does not raises before its first access.
-/
namespace Sys2Proof.Proofs.Blocks

open Sys2Proof Sys2Proof.Machine

/-! ### FX1E -/

/-- Settles O41: the frame is that of a flag written before a completion, with a write of I in between. -/
theorem addIndexResult : Obligations.AddIndexResult := fun x s => by
  obtain ⟨hregs, hstack, hmem, hscreen, hcommon⟩ := IndexRegister.complete_setI_frame
    (RegisterFrame.complete_setReg s vf (indexFlag s.I (s.reg x)) s.pcNext) (indexResult s.I (s.reg x))
  refine ⟨_, exec_addIVx s x, indexResult_toNat _ _, ?_, hregs, hstack, hmem, hscreen, hcommon, .complete _ _,
    .complete rfl rfl _⟩
  rw [← indexFlag_eq]
  exact State.reg_setReg_self s vf _

/-! ### Blocks inside memory -/

/-- What a completion that changes memory alone leaves. -/
theorem complete_setMem_results (s : State) (m : Memory) :
    SameRegsBut [] s ((s.setMem m).complete s.pcNext) ∧ ((s.setMem m).complete s.pcNext).I = s.I ∧
      SameStack s ((s.setMem m).complete s.pcNext) ∧ SameScreen s ((s.setMem m).complete s.pcNext) ∧
      CommonFrame s ((s.setMem m).complete s.pcNext) ∧
      Advances (s.pc + 2#16) ((s.setMem m).complete s.pcNext) ∧
      TimersCounted s ((s.setMem m).complete s.pcNext) :=
  ⟨fun _ _ => rfl, rfl, ⟨rfl, fun _ => rfl⟩, fun _ _ => rfl, .of_eq rfl rfl rfl rfl rfl rfl rfl rfl rfl rfl rfl,
    .complete _ _, .complete rfl rfl _⟩

/-- Settles O42: the block copy puts V[r] at I + r and touches nothing outside the block. -/
theorem storeRegistersResult : Obligations.StoreRegistersResult := by
  intro x s hM hfit
  have hlen := s.regsUpTo_length x
  have hblock : s.I.toNat + (s.regsUpTo x).length ≤ Config.memSize := by
    rw [hlen]
    exact Nat.succ_le_succ hfit
  refine ⟨_, exec_stMem_ok x (by omega), fun r hr => ?_, fun a ha => Memory.get_copy_outside ?_,
    Memory.wf_copy hM hblock, complete_setMem_results s _⟩
  · have hr' : r.val < (s.regsUpTo x).length := by omega
    exact (Memory.get_copy_inside hM hr' hblock).trans (s.regsUpTo_getElem x r hr')
  · simp only [effAddr] at ha
    omega

/-- The bytes that FX65 reads. -/
def blockBytes (s : State) (x : Reg) : List Byte := (List.range (x.val + 1)).map fun j => s.M.get (s.I.toNat + j)

theorem blockBytes_length (s : State) (x : Reg) : (blockBytes s x).length = x.val + 1 := by
  rw [blockBytes, List.length_map, List.length_range]

theorem exec_ldMem_blockBytes {s : State} (x : Reg) (h : s.I.toNat + x.val < 4096) :
    exec (.ldMem x) s = .next ((s.setRegs (blockBytes s x)).complete s.pcNext) :=
  exec_ldMem_ok x h

/-- Settles O43: the block of registers receives the block of bytes. -/
theorem loadRegistersResult : Obligations.LoadRegistersResult := by
  intro x s hfit
  have hlen := blockBytes_length s x
  have := x.isLt
  refine ⟨_, exec_ldMem_blockBytes x (by omega), fun r hr => ?_, fun r hr => ?_, rfl, ⟨rfl, fun _ => rfl⟩,
    fun _ => rfl, fun _ _ => rfl, .of_eq rfl rfl rfl rfl rfl rfl rfl rfl rfl rfl rfl, .complete _ _,
    .complete rfl rfl _⟩
  · refine (writeRegs_inside (by omega) r.isLt (Nat.zero_le _) (by omega)).trans ?_
    simp [blockBytes, effAddr]
  · exact writeRegs_outside r.isLt (.inr (by omega))

/-- Settles O44: by O42 the bytes at I + r are the registers stored, and by O43 they are what is loaded. -/
theorem storeThenLoadRestoresRegisters : Obligations.StoreThenLoadRestoresRegisters := by
  intro x s hM hfit
  obtain ⟨t, ht, hstored, -, -, -, htI, -⟩ := storeRegistersResult x s hM hfit
  refine ⟨t, ht, fun u hu huI => ?_⟩
  have hI : u.I = s.I := huI.trans htI
  obtain ⟨w, hw, hloaded, -⟩ := loadRegistersResult x u (hI ▸ hfit)
  refine ⟨w, hw, fun r hr => ?_⟩
  rw [hloaded r hr, hu, effAddr, hI]
  exact hstored r hr

/-! ### Blocks past the end of memory -/

/-- Settles O45: each of the three checks its whole block first, and the value is the block's last address. -/
theorem blockAboveMemoryHalts : Obligations.BlockAboveMemoryHalts := by
  intro x y n s
  refine ⟨fun h => ⟨⟨_, exec_stMem_fault x (by omega), rfl⟩, ⟨_, exec_ldMem_fault x (by omega), rfl⟩⟩,
    fun hn h => ⟨_, exec_drw_fault x y n hn (by omega), ?_⟩⟩
  rw [Nat.add_sub_assoc hn]
  rfl

end Sys2Proof.Proofs.Blocks
end

section
/-!
DXYN (R202, spec/44_display.md). The law of the drawing loops (`drawRows_law`) speaks of the bytes read; `SpriteCovers`
speaks of the same bytes in memory. Drawing twice is that law used twice, the sprite covering the same pixels both
times.
-/
namespace Sys2Proof.Proofs.Sprites

open Sys2Proof Sys2Proof.Machine

/-- The rows that a sprite of n rows at I has in memory. -/
def spriteRows (s : State) (n : Nibble) : List Byte := (List.range n.toNat).map fun j => s.M.get (s.I.toNat + j)

theorem spriteRows_length (s : State) (n : Nibble) : (spriteRows s n).length = n.toNat := by
  rw [spriteRows, List.length_map, List.length_range]

theorem bytesCover_spriteRows_iff (s : State) (x y : Reg) (n : Nibble) (px : Fin 64) (py : Fin 32) :
    BytesCover (spriteRows s n) (s.reg x).toNat (s.reg y).toNat px py ↔ SpriteCovers s x y n px py := by
  simp only [BytesCover, SpriteCovers, spriteRows, List.length_map, List.length_range, List.getElem_map,
    List.getElem_range, exists_prop]

/-- The sprite drawn on the framebuffer as it is. -/
def drawnSprite (s : State) (x y : Reg) (n : Nibble) : Drawn Framebuffer :=
  drawRows (s.reg x).toNat (s.reg y).toNat (spriteRows s n) ⟨s.FB, false⟩

theorem drawnSprite_pixels (s : State) (x y : Reg) (n : Nibble) (px : Fin 64) (py : Fin 32) :
    (SpriteCovers s x y n px py → (drawnSprite s x y n).pixels.get px py = !s.FB.get px py) ∧
      (¬ SpriteCovers s x y n px py → (drawnSprite s x y n).pixels.get px py = s.FB.get px py) := by
  have hlen : (spriteRows s n).length ≤ 32 := by
    have := n.isLt
    rw [spriteRows_length]
    omega
  rw [← bytesCover_spriteRows_iff]
  exact (drawRows_law _ _ _ hlen _).1 px py

theorem drawnSprite_hit_iff (s : State) (x y : Reg) (n : Nibble) :
    (drawnSprite s x y n).hit = true ↔ ∃ px py, SpriteCovers s x y n px py ∧ s.FB.get px py = true := by
  have hlen : (spriteRows s n).length ≤ 32 := by
    have := n.isLt
    rw [spriteRows_length]
    omega
  simp only [drawnSprite, (drawRows_law _ _ _ hlen _).2, Bool.false_eq_true, false_or, bytesCover_spriteRows_iff]

theorem exec_drw_drawnSprite {s : State} (x y : Reg) (n : Nibble) (h : s.I.toNat + n.toNat ≤ 4096) :
    exec (.drw x y n) s = .next (((s.setReg vf (collisionFlag (drawnSprite s x y n))).setFB
      (drawnSprite s x y n).pixels).complete s.pcNext) :=
  exec_drw_ok x y n h

/-- Settles O47: the loops' law, and the frame of a flag written before a completion. -/
theorem drawTogglesExactlyTheSpritePixels : Obligations.DrawTogglesExactlyTheSpritePixels := by
  intro x y n s hfit
  have hI := s.I.isLt
  obtain ⟨hregs, hindex, hstack, hmem, hcommon⟩ := Display.complete_setFB_frame
    (RegisterFrame.complete_setReg s vf (collisionFlag (drawnSprite s x y n)) s.pcNext) (drawnSprite s x y n).pixels
  refine ⟨_, exec_drw_drawnSprite x y n (by omega), drawnSprite_pixels s x y n, fun hhit => ?_, fun hmiss => ?_, hregs,
    hindex, hstack, hmem, hcommon, .complete _ _, .complete rfl rfl _⟩ <;>
    refine (State.reg_setReg_self s vf _).trans ?_ <;> rw [collisionFlag]
  · rw [(drawnSprite_hit_iff s x y n).mpr hhit, flag_true]
  · have hno : (drawnSprite s x y n).hit = false := by
      rw [Bool.eq_false_iff, Ne, drawnSprite_hit_iff]
      rintro ⟨px, py, hcover, hon⟩
      exact absurd ((hmiss px py hcover).symm.trans hon) (by decide)
    rw [hno, flag_false]

/-- A sprite covers the same pixels in two states with the same coordinates, I and memory. -/
theorem spriteCovers_congr {s t : State} {x y : Reg} (n : Nibble) (hx : t.reg x = s.reg x) (hy : t.reg y = s.reg y)
    (hI : t.I = s.I) (hM : SameMemory s t) (px : Fin 64) (py : Fin 32) :
    SpriteCovers t x y n px py ↔ SpriteCovers s x y n px py := by
  simp only [SpriteCovers, hx, hy, hI, hM _]

/-- Settles O48: O47 twice. A covered pixel is toggled twice, and one that was off before the first draw is on before
the second. -/
theorem drawingTwiceRestoresTheScreen : Obligations.DrawingTwiceRestoresTheScreen := by
  intro x y n s hx hy hfit
  obtain ⟨t, ht, htpix, -, -, htregs, htI, -, htM, -⟩ := drawTogglesExactlyTheSpritePixels x y n s hfit
  obtain ⟨u, hu, hupix, huhit, humiss, -⟩ := drawTogglesExactlyTheSpritePixels x y n t (htI ▸ hfit)
  have hcovers := spriteCovers_congr n (htregs x (by simpa using hx)) (htregs y (by simpa using hy)) htI htM
  simp only [hcovers] at hupix huhit humiss
  refine ⟨t, u, ht, hu, fun px py => ?_, fun hvf => ?_, ?_⟩
  · by_cases hc : SpriteCovers s x y n px py
    · rw [(hupix px py).1 hc, (htpix px py).1 hc, Bool.not_not]
    · rw [(hupix px py).2 hc, (htpix px py).2 hc]
  · refine Classical.byContradiction fun hnone => ?_
    have hzero : u.reg 15 = 0x00#8 := humiss fun px py hc => by
      have hon : s.FB.get px py = true := eq_true_of_ne_false fun hoff => hnone ⟨px, py, hc, hoff⟩
      rw [(htpix px py).1 hc, hon, Bool.not_true]
    exact absurd (hvf.symm.trans hzero) (by decide)
  · rintro ⟨px, py, hc, hoff⟩
    exact huhit ⟨px, py, hc, by rw [(htpix px py).1 hc, hoff, Bool.not_false]⟩

end Sys2Proof.Proofs.Sprites
end

section
/-!
The moves of the host (spec/60_exceptions.md section 6, spec/70_reset_and_hazards.md section 2): the ROM load, the
start, the stop, the enqueue and the reads, each with the answer where the spec has no such move.
-/
namespace Sys2Proof.Proofs.HostMoves

open Sys2Proof Sys2Proof.Machine Sys2Proof.Proofs.Steps

/-! ### ROM load and start -/

theorem hostLoadROM_tooLarge {s : State} {bytes : List Byte} (hs : s.started = false) (hl : 3584 < bytes.length) :
    hostLoadROM bytes s = .refused .romTooLarge := by
  simp only [hostLoadROM, hs, Bool.false_eq_true, if_false, Config.romMax, hl, if_true]

theorem hostLoadROM_started {s : State} (bytes : List Byte) (hs : s.started = true) :
    hostLoadROM bytes s = .fault .romLoadNotEnabled := by
  simp only [hostLoadROM, hs, if_true]

/-- Settles O56: the load is a block copy inside memory. -/
theorem romLoadWritesExactlyItsBytes : Obligations.RomLoadWritesExactlyItsBytes := by
  intro s bytes rest hM h
  rw [step_of_host h]
  refine ⟨fun hs hl => ?_, fun hs hl => hostLoadROM_tooLarge hs hl, fun hs => hostLoadROM_started bytes hs⟩
  have hfit : 0x200 + bytes.length ≤ Config.memSize := by
    simp only [Config.memSize]
    omega
  exact ⟨_, hostLoadROM_ok hs hl, fun j hj => Memory.get_copy_inside hM hj hfit, fun a ha => Memory.get_copy_outside ha,
    Memory.wf_copy hM hfit, rfl⟩

theorem hostStart_refused {s : State} (h : s.started = true ∨ s.fault ≠ .none) :
    hostStart s = .fault .startNotEnabled := by
  obtain h | h := h <;> simp [hostStart, h]

/-- Settles O57: the move has its precondition and writes two fields. -/
theorem hostStartIsOfferedOncePerReset : Obligations.HostStartIsOfferedOncePerReset := by
  intro s rest h
  rw [step_of_host h]
  exact ⟨fun hs hf => hostStart_ok hs hf, fun hno => hostStart_refused hno⟩

/-! ### Stop -/

/-- The end of a key wait with key k, whoever ends it. -/
theorem endWait_results (s : State) (k : Key) :
    ((s.endWait k).reg (fieldX s.IR)).toNat = k.val ∧ SameRegsBut [fieldX s.IR] s (s.endWait k) ∧
      Advances (s.pc + 2#16) (s.endWait k) ∧ TimersCounted s (s.endWait k) := by
  refine ⟨?_, fun r hr => ?_, ⟨rfl, rfl⟩, countDown_toNat _, countDown_toNat _⟩
  · have hself : (s.endWait k).reg (fieldX s.IR) = BitVec.ofNat 8 k.val := State.reg_setReg_self s _ _
    have := k.isLt
    rw [hself, BitVec.toNat_ofNat]
    omega
  · exact State.reg_setReg_of_ne s _ fun he => hr (by simp [he])

/-- Settles O58: outside a wait the move clears run; in a wait it abandons the instruction or ends it as
CoreWaitComplete would. -/
theorem hostStopEndsARunOrAWait : Obligations.HostStopEndsARunOrAWait := by
  intro s rest h
  rw [step_of_host h]
  refine ⟨fun hidle => congrArg _ (hostStop_idle ?_), fun hrun hwait => ⟨_, rfl, ?_⟩⟩
  · obtain hr | hw := hidle
    · exact Bool.and_eq_false_imp.mpr fun hr' => absurd (hr.symm.trans hr') (by decide)
    · exact (congrArg (s.run && ·) hw).trans (Bool.and_false _)
  · have hboth : (s.run && s.wait) = true := Bool.and_eq_true_iff.mpr ⟨hrun, hwait⟩
    obtain he | ⟨k, he⟩ := hostStop_waiting (s := { s with schedule := rest }) hboth <;> rw [he]
    · exact ⟨rfl, rfl, .inl ⟨fun _ _ => rfl, rfl, rfl, rfl, rfl⟩, rfl, ⟨rfl, fun _ => rfl⟩, fun _ => rfl,
        fun _ _ => rfl, ⟨fun _ => rfl, rfl⟩, rfl, rfl, rfl, rfl, rfl, rfl, rfl⟩
    · exact ⟨rfl, rfl, .inr ⟨k, endWait_results s k⟩, rfl, ⟨rfl, fun _ => rfl⟩, fun _ => rfl, fun _ _ => rfl,
        ⟨fun _ => rfl, rfl⟩, rfl, rfl, rfl, rfl, rfl, rfl, rfl⟩

/-! ### Enqueue -/

theorem step_enqueue {s : State} {k : Key} {d : Bool} {rest : List Turn} (h : s.schedule = .host (.enqueue k d) :: rest)
    (hroom : ∀ n, s.eqDepth = some n → s.EQ.length < n) :
    step s = .next { s with schedule := rest, EQ := s.EQ ++ [⟨k, d⟩] } :=
  (step_of_host h).trans (hostEnqueue_ok k d hroom)

/-- Settles O59: the capacity, if there is one, decides. -/
theorem enqueueAppendsAtTheYoungEnd : Obligations.EnqueueAppendsAtTheYoungEnd := by
  intro s k d rest h
  refine ⟨fun hroom => step_enqueue h fun n hn => ?_, fun n hn hfull => ?_⟩
  · obtain hnone | ⟨m, hm, hlt⟩ := hroom
    · exact absurd (hnone.symm.trans hn) nofun
    · exact Option.some.inj (hm.symm.trans hn) ▸ hlt
  · exact (step_of_host h).trans (hostEnqueue_full k d hn hfull)

/-! ### Reads -/

/-- A core turn with an overlapping read makes the transition that the turn without it makes. -/
theorem step_coreWithRead_of_core {s u : State} {rest : List Turn} (h : s.schedule = .coreWithRead :: rest)
    (hu : step { s with schedule := .core :: rest } = .next u) :
    step s = .next (u.useFree.record (.framebuffer (tornGrid u.freeCount s.FB u.FB))) := by
  have hcore : coreTurn { s with schedule := rest } = .next u :=
    (step_of_coreMoves (s := { s with schedule := .core :: rest }) (.inr ⟨rest, rfl⟩)).symm.trans hu
  have hturn : s.nextTurn = (.coreWithRead, { s with schedule := rest }) := nextTurn_cons h
  rw [step_coreWithRead (congrArg Prod.fst hturn), hturn, coreTurnWithRead, hcore]

/-- Settles O60: a read is one record, and each pixel of a torn grid is the old or the new one. -/
theorem hostReadsChangeNothingAndReturnTheState : Obligations.HostReadsChangeNothingAndReturnTheState := by
  refine fun s rest => ⟨fun h => step_of_host h, fun h => step_of_host h, fun h u hu =>
    ⟨_, _, step_coreWithRead_of_core h hu, rfl, fun px py => ?_⟩⟩
  rw [tornGrid_get]
  split
  · exact .inr rfl
  · exact .inl rfl

end Sys2Proof.Proofs.HostMoves
end

section
/-!
Key skips, timers and the key wait over several steps (R220 to R226, spec/45_keys_timers.md), and the three no-ops
(R128 to R131). FX0A is one relation over its entry, the host's events and its completion: the events only grow the
queue, and the completion takes the oldest down event of it.
-/
namespace Sys2Proof.Proofs.KeyWait

open Sys2Proof Sys2Proof.Machine Sys2Proof.Proofs.Steps Sys2Proof.Proofs.HostMoves

/-! ### No-ops and timers -/

/-- What a completion alone leaves. -/
theorem complete_results (s : State) :
    RegisterFrame [] s (s.complete s.pcNext) ∧ Advances (s.pc + 2#16) (s.complete s.pcNext) ∧
      TimersCounted s (s.complete s.pcNext) :=
  ⟨.complete s _, .complete s _, .complete rfl rfl _⟩

/-- Settles O55: each is a completion alone. -/
theorem noOpsChangeOnlyPcAndTimers : Obligations.NoOpsChangeOnlyPcAndTimers := fun nnn x s =>
  ⟨⟨_, exec_sys s nnn, complete_results s⟩, ⟨_, exec_ldFVx s x, complete_results s⟩,
    ⟨_, exec_ldBVx s x, complete_results s⟩⟩

/-- Settles O51: the completion counts the value just written. -/
theorem setTimerResults : Obligations.SetTimerResults := fun x s => by
  obtain ⟨hregs, hindex, hstack, hmem, hscreen, hkeypad, hstatus, hhost⟩ := RegisterFrame.complete s s.pcNext
  exact ⟨⟨_, exec_ldDtVx s x, countDown_toNat _, countDown_toNat _,
      ⟨hregs, hindex, hstack, hmem, hscreen, hkeypad, hstatus, hhost⟩, .complete _ _⟩,
    ⟨_, exec_ldStVx s x, countDown_toNat _, countDown_toNat _,
      ⟨hregs, hindex, hstack, hmem, hscreen, hkeypad, hstatus, hhost⟩, .complete _ _⟩⟩

/-! ### Key skips -/

/-- A key skip with an operand that names key k tests K[k]. -/
theorem keyState_of_toNat {s : State} {x : Reg} {k : Key} (hk : (s.reg x).toNat = k.val) (h : (s.reg x).toNat < 16) :
    s.keyState ⟨(s.reg x).toNat, h⟩ = s.K[k] := by
  rw [show (⟨(s.reg x).toNat, h⟩ : Key) = k from Fin.ext hk, State.keyState]

/-- Settles O49: V[X] names a key or raises; with a key both skips are completions under a condition on K. -/
theorem keySkipResults : Obligations.KeySkipResults := by
  intro x s
  refine ⟨fun k hk => ?_, fun hbad => ?_⟩
  · have hlt : (s.reg x).toNat < 16 := hk ▸ k.isLt
    have hkey := keyState_of_toNat hk hlt
    exact ⟨⟨_, exec_skp_ok x hlt, ControlFlow.complete_skip_results s (hkey ▸ ControlFlow.beq_eq_decide_eq _ _)⟩,
      ⟨_, exec_sknp_ok x hlt, ControlFlow.complete_skip_results s (hkey ▸ ControlFlow.beq_eq_decide_eq _ _)⟩⟩
  · have hno : ¬ (s.reg x).toNat < 16 := by omega
    have hinfo : (s.reg x).zeroExtend 16 = BitVec.ofNat 16 (s.reg x).toNat := (BitVec.ofNat_toNat 16 _).symm
    exact ⟨⟨_, exec_skp_fault x hno, hinfo ▸ rfl⟩, ⟨_, exec_sknp_fault x hno, hinfo ▸ rfl⟩⟩

/-! ### The entry and the completion of a key wait -/

theorem fieldX_encode_ldVxK (x : Reg) : fieldX (encode (.ldVxK x)) = x := fieldX_encXNN _ x _

theorem step_waitComplete {u : State} {ups later : List KeyEvent} {k : Key} (hturn : CoreMoves u) (hrun : u.run = true)
    (hfault : u.fault = .none) (hwait : u.wait = true) (hEQ : u.EQ = ups ++ ⟨k, true⟩ :: later)
    (hups : ∀ e ∈ ups, e.down = false) : step u = .next (waitComplete k (spent u)) := by
  have hdown : oldestDown (spent u).EQ = some k := by
    rw [hEQ, oldestDown_append hups, oldestDown_down _ rfl]
  rw [step_of_coreMoves hturn]
  exact (coreTurn_wait (s := spent u) (coreRuns_iff.mpr ⟨hrun, hfault⟩) hwait).trans (coreWait_ends hdown)

/-- Settles O52: the entry is `suspend`; the completion takes X from the latch and the key from the queue. -/
theorem keyWaitEntryAndCompletion : Obligations.KeyWaitEntryAndCompletion := by
  refine fun x s => ⟨exec_ldVxK s x, fun u ups later k hturn hrun hfault hwait hIR hEQ hups => ?_⟩
  obtain ⟨hkey, hregs, hpc, htimers⟩ := endWait_results u k
  rw [hIR, fieldX_encode_ldVxK] at hkey hregs
  exact ⟨_, step_waitComplete hturn hrun hfault hwait hEQ hups, hkey, hregs, rfl, rfl, hpc, htimers, rfl,
    ⟨rfl, fun _ => rfl⟩, fun _ => rfl, fun _ _ => rfl, fun _ => rfl, rfl, rfl, rfl, rfl, rfl, rfl, rfl, rfl, rfl⟩

/-! ### Events during a wait -/

/-- A scheduled enqueue into a queue that holds it and all that follows has room. -/
theorem room_of_queueHolds {s : State} {e : KeyEvent} {es : List KeyEvent}
    (h : QueueHolds s (s.EQ ++ e :: es).length) : ∀ n, s.eqDepth = some n → s.EQ.length < n := by
  intro n hn
  have := h n hn
  rw [List.length_append, List.length_cons] at this
  omega

/-- Scheduled enqueues that the queue can hold grow the queue and change nothing else. -/
theorem runFor_enqueues (es : List KeyEvent) {s : State} {rest : List Turn} (m : Nat)
    (hsched : s.schedule = (es.map fun e => .host (.enqueue e.key e.down)) ++ rest)
    (hroom : QueueHolds s (s.EQ ++ es).length) :
    runFor (es.length + m) s = runFor m { s with schedule := rest, EQ := s.EQ ++ es } := by
  induction es generalizing s with
  | nil =>
    rw [List.append_nil, List.length_nil, Nat.zero_add, ← show s.schedule = rest from hsched]
  | cons e es ih =>
    have hstep := step_enqueue hsched (room_of_queueHolds hroom)
    rw [List.length_cons, Nat.add_right_comm, List.append_cons]
    rw [List.append_cons] at hroom
    exact (runFor_succ _ hstep).trans (ih rfl hroom)

/-- The state after the entry of FX0A. -/
def entered (s : State) (x : Reg) : State := ((spent s).latch (encode (.ldVxK x))).suspend

theorem step_ldVxK {s : State} {x : Reg} (hexec : ExecTurn s) (hpc : s.pc.toNat ≤ 0x0FFE)
    (hop : joinBytes (s.M.get s.pc.toNat) (s.M.get (s.pc.toNat + 1)) = encode (.ldVxK x)) :
    step s = .next (entered s x) := by
  have hdec : decode (joinBytes (s.M.get s.pc.toNat) (s.M.get (s.pc.toNat + 1))) = .ok (.ldVxK x) := by
    rw [hop]
    exact DecodeEncode.decode_encode rfl
  rw [stepExecutesTheDecodedInstruction s _ hexec hpc hdec, hop]
  rfl

/-- Settles O53: the entry, then the enqueues into the emptied queue, then the completion of O52. -/
theorem keyWaitAsOneRelation : Obligations.KeyWaitAsOneRelation := by
  intro s x ups later k rest hrun hfault hwait hphase hpc hop hups hroom hsched
  have hentry := step_ldVxK ⟨.inr ⟨_, hsched⟩, hrun, hfault, hwait, hphase⟩ hpc hop
  have hevents := runFor_enqueues (ups ++ ⟨k, true⟩ :: later) (s := entered s x)
    (rest := .core :: rest) 1 (congrArg List.tail hsched) hroom
  obtain ⟨t, ht, hkey, hregs, hEQ, htwait, hadv, htimers, hI, hstack, hM, hFB, hK, htrun, htfault, hinfo, hstarted, hIR,
    htsched, hreads, hdepth, hfree⟩ := (keyWaitEntryAndCompletion x s).2
      { entered s x with schedule := .core :: rest, EQ := ups ++ ⟨k, true⟩ :: later } ups later k (.inr ⟨rest, rfl⟩)
      hrun hfault rfl rfl rfl hups
  refine ⟨t, ?_, hkey, hregs, hEQ, htwait, hadv, htimers, hI, hstack, hM, hFB, hK, htrun.trans hrun,
    htfault.trans hfault, hinfo, hstarted, hIR, htsched, hreads, hdepth, hfree⟩
  rw [Nat.add_assoc, Nat.add_comm 1]
  exact (runFor_succ _ hentry).trans (hevents.trans (runFor_succ 0 ht))

/-! ### Up events only -/

/-- A turn that leaves a waiting core waiting: the core's own, or an up event. -/
abbrev WaitTurn (u : Turn) : Prop := u = .core ∨ ∃ k : Key, u = .host (.enqueue k false)

theorem event?_up {u : Turn} (hu : WaitTurn u) {e : KeyEvent} (he : u.event? = some e) : e.down = false := by
  obtain rfl | ⟨k, rfl⟩ := hu <;> cases he
  rfl

theorem events_up {turns : List Turn} (h : ∀ u ∈ turns, WaitTurn u) :
    ∀ e ∈ turns.filterMap Turn.event?, e.down = false := by
  intro e he
  obtain ⟨u, hu, hue⟩ := List.mem_filterMap.mp he
  exact event?_up (h u hu) hue

theorem ups_concat {es : List KeyEvent} (h : ∀ e ∈ es, e.down = false) (k : Key) :
    ∀ e ∈ es ++ [KeyEvent.mk k false], e.down = false :=
  List.forall_mem_append.mpr ⟨h, List.forall_mem_singleton.mpr rfl⟩

theorem runFor_waitTurns (turns : List Turn) {s : State} {rest : List Turn} (hwait : s.wait = true)
    (hups : ∀ e ∈ s.EQ, e.down = false) (hturns : ∀ u ∈ turns, WaitTurn u) (hsched : s.schedule = turns ++ rest)
    (hroom : QueueHolds s (s.EQ ++ turns.filterMap Turn.event?).length) :
    runFor turns.length s = .next { s with schedule := rest, EQ := s.EQ ++ turns.filterMap Turn.event? } := by
  induction turns generalizing s with
  | nil => rw [List.filterMap_nil, List.append_nil, ← show s.schedule = rest from hsched]; rfl
  | cons u us ih =>
    have hus : ∀ u ∈ us, WaitTurn u := fun v hv => hturns v (List.mem_cons_of_mem u hv)
    obtain rfl | ⟨k, rfl⟩ := hturns u List.mem_cons_self
    · have hstep := coreWithNothingEnabledStaysAsItIs s (.inr ⟨_, hsched⟩) (.inr (.inr ⟨hwait, hups⟩))
      exact (runFor_succ _ hstep).trans (ih hwait hups hus (congrArg List.tail hsched) hroom)
    · rw [events_enqueue] at hroom ⊢
      have hstep := step_enqueue hsched (room_of_queueHolds hroom)
      rw [List.append_cons] at hroom ⊢
      exact (runFor_succ _ hstep).trans (ih hwait (ups_concat hups k) hus rfl hroom)

/-- Settles O54: a core turn finds no down event and leaves the state, and an up event only joins the queue. -/
theorem keyWaitIgnoresUpEvents : Obligations.KeyWaitIgnoresUpEvents :=
  fun turns _ _ _ _ hwait hups hturns hsched hroom =>
    ⟨runFor_waitTurns turns hwait hups hturns hsched hroom, List.forall_mem_append.mpr ⟨hups, events_up hturns⟩⟩

end Sys2Proof.Proofs.KeyWait
end
